-- ==== Sys2Proof/Word.lean ====
section
/-! DEFINITION. The word types of the machine: bytes, 12-bit addresses, 16-bit instruction words, nibbles and
register numbers (`00_scope.md` R4, R6; `10_state.md` R11). Every value is unsigned (R6). -/

namespace Sys2Proof

/-- An 8-bit value: a general register, a timer, a byte of memory (R6, R10). -/
abbrev Byte := BitVec 8

/-- A 12-bit byte address: the significant bits of `I`, `PC` and a stack entry (R4, R13, R14, R16). -/
abbrev Addr := BitVec 12

/-- A 16-bit instruction word, the spec's `op` (R46). -/
abbrev OpWord := BitVec 16

/-- A 4-bit half-byte of an instruction word (`00_scope.md` section 6). -/
abbrev Nibble := BitVec 4

/-- The number of a general register `V[0]` to `V[15]` (R11), and of a key latch (R120). -/
abbrev Reg := Fin 16

end Sys2Proof
end

