-- ==== Sys2Proof/Syntax.lean ====
section
/-! DEFINITION. The instructions: one constructor per row of `spec/opcode_table.json`, in the table's order
(`30_encoding.md` R58). Field names are the spec's (R48): `x`, `y` register numbers, `nn` an 8-bit immediate, `nnn` a 12-bit
address, `n` a row count. -/

namespace Sys2Proof

inductive Instr where
  /-- `00E0` CLS: clear the display (R111). -/
  | cls
  /-- `00EE` RET: return from subroutine (R66). -/
  | ret
  /-- `1NNN` JP nnn: jump (R67). -/
  | jp (nnn : Addr)
  /-- `2NNN` CALL nnn: call subroutine (R68). -/
  | call (nnn : Addr)
  /-- `3XNN` SE Vx, nn: skip if equal (R69). -/
  | seImm (x : Reg) (nn : Byte)
  /-- `4XNN` SNE Vx, nn: skip if not equal (R70). -/
  | sneImm (x : Reg) (nn : Byte)
  /-- `5XY0` SE Vx, Vy: skip if the registers are equal (R71). -/
  | seReg (x y : Reg)
  /-- `6XNN` LD Vx, nn: load immediate (R82). -/
  | ldImm (x : Reg) (nn : Byte)
  /-- `7XNN` ADD Vx, nn: add immediate, no flag (R83). -/
  | addImm (x : Reg) (nn : Byte)
  /-- `8XY0` LD Vx, Vy: copy register (R84). -/
  | ldReg (x y : Reg)
  /-- `8XY1` OR Vx, Vy (R85). -/
  | orReg (x y : Reg)
  /-- `8XY2` AND Vx, Vy (R86). -/
  | andReg (x y : Reg)
  /-- `8XY3` XOR Vx, Vy (R87). -/
  | xorReg (x y : Reg)
  /-- `8XY4` ADD Vx, Vy: add with carry out (R88). -/
  | addReg (x y : Reg)
  /-- `8XY5` SUB Vx, Vy: subtract, flag is not-borrow (R89). -/
  | subReg (x y : Reg)
  /-- `8XY6` SHR Vx, Vy: shift right by one (R90). -/
  | shrReg (x y : Reg)
  /-- `8XY7` SUBN Vx, Vy: reverse subtract (R91; the spec's decision D6, log entry 15). -/
  | subnReg (x y : Reg)
  /-- `8XYE` SHL Vx, Vy: shift left by one (R92). -/
  | shlReg (x y : Reg)
  /-- `9XY0` SNE Vx, Vy: skip if the registers differ (R72). -/
  | sneReg (x y : Reg)
  /-- `ANNN` LD I, nnn: load the index register (R101). -/
  | ldI (nnn : Addr)
  /-- `BNNN` JP V0, nnn: jump with offset (R73). -/
  | jpV0 (nnn : Addr)
  /-- `CXNN` RND Vx, nn: masked random byte (R93). -/
  | rnd (x : Reg) (nn : Byte)
  /-- `DXYN` DRW Vx, Vy, n: draw an `n`-row sprite (R112). -/
  | drw (x y : Reg) (n : Nat)
  /-- `EX9E` SKP Vx: skip if the key is down (R121). -/
  | skp (x : Reg)
  /-- `EXA1` SKNP Vx: skip if the key is not down (R122). -/
  | sknp (x : Reg)
  /-- `FX07` LD Vx, DT: read the delay timer (R123). -/
  | ldVxDT (x : Reg)
  /-- `FX0A` LD Vx, K: wait for a key (R126). -/
  | ldVxK (x : Reg)
  /-- `FX15` LD DT, Vx: set the delay timer (R124). -/
  | ldDTVx (x : Reg)
  /-- `FX18` LD ST, Vx: set the sound timer (R125). -/
  | ldSTVx (x : Reg)
  /-- `FX1E` ADD I, Vx: add to the index register (R102). -/
  | addI (x : Reg)
  /-- `FX29` LD F, Vx: point the index register at a font glyph (R103). -/
  | ldF (x : Reg)
  /-- `FX33` LD B, Vx: store the three decimal digits (R104). -/
  | ldB (x : Reg)
  /-- `FX55` LD [I], Vx: store `V[0]` to `V[x]` (R105). -/
  | storeRegs (x : Reg)
  /-- `FX65` LD Vx, [I]: load `V[0]` to `V[x]` (R106). -/
  | loadRegs (x : Reg)
  deriving DecidableEq, Repr

end Sys2Proof
end

