-- ==== Sys2Proof/Decode.lean ====
section
/-! DEFINITION. The decoder (`30_encoding.md` R48, R50), total on any word and rejecting by name the words that R52 lists
as illegal; after it the encoder, written from the bit patterns of R58 and R47. -/

namespace Sys2Proof

/-- Why a word is Illegal: one name per row of R52's table. Every one of them makes a step raise `DecodeError` (R131). -/
inductive IllegalWord where
  /-- `0x0000–0x0FFF` except `0x00E0` and `0x00EE` (R52, R54). -/
  | major0
  /-- `0x5XY1–0x5XYF`. -/
  | major5
  /-- `0x8XY8–0x8XYD`, `0x8XYF`. -/
  | major8
  /-- `0x9XY1–0x9XYF`. -/
  | major9
  /-- `0xEXNN` with `NN` not `0x9E` or `0xA1`. -/
  | majorE
  /-- `0xFXNN` with `NN` none of the nine listed low bytes. -/
  | majorF
  deriving DecidableEq, Repr

/-! ### Fields (R48) -/

/-- `op[15:12]`, the top nibble. -/
def fieldMajor (op : OpWord) : Nibble := op.extractLsb' 12 4

/-- `op[11:8]`, a register number. -/
def fieldX (op : OpWord) : Reg := (op.extractLsb' 8 4 : Nibble).toFin

/-- `op[7:4]`, a register number. -/
def fieldY (op : OpWord) : Reg := (op.extractLsb' 4 4 : Nibble).toFin

/-- `op[3:0]`: the sprite height of `DXYN`, the minor opcode of format R. -/
def fieldN (op : OpWord) : Nibble := op.extractLsb' 0 4

/-- `op[7:0]`: the 8-bit immediate, the minor opcode of format X. -/
def fieldNN (op : OpWord) : Byte := op.extractLsb' 0 8

/-- `op[11:0]`: the 12-bit address immediate. -/
def fieldNNN (op : OpWord) : Addr := op.extractLsb' 0 12

/-! ### Decoding (R50) -/

/-- Major nibble 0 (R50): two exact words. -/
def decode0 (op : OpWord) : Except IllegalWord Instr :=
  if op = 0x00E0 then .ok .cls
  else if op = 0x00EE then .ok .ret
  else .error .major0

/-- Major nibble 8 (R50): the register-register operations, by the low nibble. -/
def decode8 (op : OpWord) : Except IllegalWord Instr :=
  match (fieldN op).toNat with
  | 0x0 => .ok (.ldReg (fieldX op) (fieldY op))
  | 0x1 => .ok (.orReg (fieldX op) (fieldY op))
  | 0x2 => .ok (.andReg (fieldX op) (fieldY op))
  | 0x3 => .ok (.xorReg (fieldX op) (fieldY op))
  | 0x4 => .ok (.addReg (fieldX op) (fieldY op))
  | 0x5 => .ok (.subReg (fieldX op) (fieldY op))
  | 0x6 => .ok (.shrReg (fieldX op) (fieldY op))
  | 0x7 => .ok (.subnReg (fieldX op) (fieldY op))
  | 0xE => .ok (.shlReg (fieldX op) (fieldY op))
  | _ => .error .major8

/-- Major nibble E (R50): the key-conditional skips, by the low byte. -/
def decodeE (op : OpWord) : Except IllegalWord Instr :=
  match (fieldNN op).toNat with
  | 0x9E => .ok (.skp (fieldX op))
  | 0xA1 => .ok (.sknp (fieldX op))
  | _ => .error .majorE

/-- Major nibble F (R50), by the low byte. -/
def decodeF (op : OpWord) : Except IllegalWord Instr :=
  match (fieldNN op).toNat with
  | 0x07 => .ok (.ldVxDT (fieldX op))
  | 0x0A => .ok (.ldVxK (fieldX op))
  | 0x15 => .ok (.ldDTVx (fieldX op))
  | 0x18 => .ok (.ldSTVx (fieldX op))
  | 0x1E => .ok (.addI (fieldX op))
  | 0x29 => .ok (.ldF (fieldX op))
  | 0x33 => .ok (.ldB (fieldX op))
  | 0x55 => .ok (.storeRegs (fieldX op))
  | 0x65 => .ok (.loadRegs (fieldX op))
  | _ => .error .majorF

/-- `Decode` of R50: a total, pure function of the word (R51). The last arm is major nibble F, the only one left. -/
def decode (op : OpWord) : Except IllegalWord Instr :=
  match (fieldMajor op).toNat with
  | 0x0 => decode0 op
  | 0x1 => .ok (.jp (fieldNNN op))
  | 0x2 => .ok (.call (fieldNNN op))
  | 0x3 => .ok (.seImm (fieldX op) (fieldNN op))
  | 0x4 => .ok (.sneImm (fieldX op) (fieldNN op))
  | 0x5 => if fieldN op = 0 then .ok (.seReg (fieldX op) (fieldY op)) else .error .major5
  | 0x6 => .ok (.ldImm (fieldX op) (fieldNN op))
  | 0x7 => .ok (.addImm (fieldX op) (fieldNN op))
  | 0x8 => decode8 op
  | 0x9 => if fieldN op = 0 then .ok (.sneReg (fieldX op) (fieldY op)) else .error .major9
  | 0xA => .ok (.ldI (fieldNNN op))
  | 0xB => .ok (.jpV0 (fieldNNN op))
  | 0xC => .ok (.rnd (fieldX op) (fieldNN op))
  | 0xD => .ok (.drw (fieldX op) (fieldY op) (fieldN op).toNat)
  | 0xE => decodeE op
  | _ => decodeF op

/-- The instruction word that two bytes of memory make, the byte at the lower address in bits 15:8 (`20_memory.md` R32). -/
def wordOfBytes (hi lo : Byte) : OpWord := hi ++ lo

/-- Decoding from bytes: the first two bytes are the instruction, the rest is handed back (R46). Fewer than two bytes are
no instruction word at all; the core never meets that case, since every fetch reads two bytes (R32). -/
def decodeBytes : List Byte → Option (Except IllegalWord Instr × List Byte)
  | hi :: lo :: rest => some (decode (wordOfBytes hi lo), rest)
  | [_] | [] => none

/-! ### Encoding (R47, R58) -/

/-- A register number as the nibble that encodes it (R48). -/
def regNibble (r : Reg) : Nibble := BitVec.ofFin r

/-- Format A: a major nibble and a 12-bit address. -/
def wordA (major : Nibble) (nnn : Addr) : OpWord := major ++ nnn

/-- Format I: a major nibble, a register and an 8-bit immediate. -/
def wordI (major : Nibble) (x : Reg) (nn : Byte) : OpWord := major ++ (regNibble x ++ nn : Addr)

/-- Formats R and D: a major nibble, two registers and a low nibble. -/
def wordR (major : Nibble) (x y : Reg) (n : Nibble) : OpWord :=
  major ++ (regNibble x ++ (regNibble y ++ n : Byte) : Addr)

/-- Format X: a major nibble, one register and a minor opcode byte. -/
def wordX (major : Nibble) (x : Reg) (minor : Byte) : OpWord := wordI major x minor

/-- The word of an instruction, from the patterns of R58. A `DRW` height above 15 is not well-formed and loses its high
bits here. -/
def encode : Instr → OpWord
  | .cls => 0x00E0
  | .ret => 0x00EE
  | .jp nnn => wordA 0x1 nnn
  | .call nnn => wordA 0x2 nnn
  | .seImm x nn => wordI 0x3 x nn
  | .sneImm x nn => wordI 0x4 x nn
  | .seReg x y => wordR 0x5 x y 0x0
  | .ldImm x nn => wordI 0x6 x nn
  | .addImm x nn => wordI 0x7 x nn
  | .ldReg x y => wordR 0x8 x y 0x0
  | .orReg x y => wordR 0x8 x y 0x1
  | .andReg x y => wordR 0x8 x y 0x2
  | .xorReg x y => wordR 0x8 x y 0x3
  | .addReg x y => wordR 0x8 x y 0x4
  | .subReg x y => wordR 0x8 x y 0x5
  | .shrReg x y => wordR 0x8 x y 0x6
  | .subnReg x y => wordR 0x8 x y 0x7
  | .shlReg x y => wordR 0x8 x y 0xE
  | .sneReg x y => wordR 0x9 x y 0x0
  | .ldI nnn => wordA 0xA nnn
  | .jpV0 nnn => wordA 0xB nnn
  | .rnd x nn => wordI 0xC x nn
  | .drw x y n => wordR 0xD x y (BitVec.ofNat 4 n)
  | .skp x => wordX 0xE x 0x9E
  | .sknp x => wordX 0xE x 0xA1
  | .ldVxDT x => wordX 0xF x 0x07
  | .ldVxK x => wordX 0xF x 0x0A
  | .ldDTVx x => wordX 0xF x 0x15
  | .ldSTVx x => wordX 0xF x 0x18
  | .addI x => wordX 0xF x 0x1E
  | .ldF x => wordX 0xF x 0x29
  | .ldB x => wordX 0xF x 0x33
  | .storeRegs x => wordX 0xF x 0x55
  | .loadRegs x => wordX 0xF x 0x65

/-! ### The opcode table (R58) -/

/-- One row of R58: a word `op` is the instruction exactly when `op &&& mask = value`. -/
structure OpcodeRow where
  /-- The row's mnemonic, as `spec/opcode_table.json` spells it. -/
  mnemonic : String
  /-- The row's `match`. -/
  value : OpWord
  /-- The row's `mask`. -/
  mask : OpWord
  deriving DecidableEq, Repr

/-- R58's row of an instruction: mnemonic, match and mask. -/
def rowOf : Instr → OpcodeRow
  | .cls => ⟨"CLS", 0x00E0, 0xFFFF⟩
  | .ret => ⟨"RET", 0x00EE, 0xFFFF⟩
  | .jp _ => ⟨"JP_nnn", 0x1000, 0xF000⟩
  | .call _ => ⟨"CALL_nnn", 0x2000, 0xF000⟩
  | .seImm _ _ => ⟨"SE_Vx__nn", 0x3000, 0xF000⟩
  | .sneImm _ _ => ⟨"SNE_Vx__nn", 0x4000, 0xF000⟩
  | .seReg _ _ => ⟨"SE_Vx__Vy", 0x5000, 0xF00F⟩
  | .ldImm _ _ => ⟨"LD_Vx__nn", 0x6000, 0xF000⟩
  | .addImm _ _ => ⟨"ADD_Vx__nn", 0x7000, 0xF000⟩
  | .ldReg _ _ => ⟨"LD_Vx__Vy", 0x8000, 0xF00F⟩
  | .orReg _ _ => ⟨"OR_Vx__Vy", 0x8001, 0xF00F⟩
  | .andReg _ _ => ⟨"AND_Vx__Vy", 0x8002, 0xF00F⟩
  | .xorReg _ _ => ⟨"XOR_Vx__Vy", 0x8003, 0xF00F⟩
  | .addReg _ _ => ⟨"ADD_Vx__Vy", 0x8004, 0xF00F⟩
  | .subReg _ _ => ⟨"SUB_Vx__Vy", 0x8005, 0xF00F⟩
  | .shrReg _ _ => ⟨"SHR_Vx__Vy", 0x8006, 0xF00F⟩
  | .subnReg _ _ => ⟨"SUBN_Vx__Vy", 0x8007, 0xF00F⟩
  | .shlReg _ _ => ⟨"SHL_Vx__Vy", 0x800E, 0xF00F⟩
  | .sneReg _ _ => ⟨"SNE_Vx__Vy", 0x9000, 0xF00F⟩
  | .ldI _ => ⟨"LD_I__nnn", 0xA000, 0xF000⟩
  | .jpV0 _ => ⟨"JP_V0__nnn", 0xB000, 0xF000⟩
  | .rnd _ _ => ⟨"RND_Vx__nn", 0xC000, 0xF000⟩
  | .drw _ _ _ => ⟨"DRW_Vx__Vy__n", 0xD000, 0xF000⟩
  | .skp _ => ⟨"SKP_Vx", 0xE09E, 0xF0FF⟩
  | .sknp _ => ⟨"SKNP_Vx", 0xE0A1, 0xF0FF⟩
  | .ldVxDT _ => ⟨"LD_Vx__DT", 0xF007, 0xF0FF⟩
  | .ldVxK _ => ⟨"LD_Vx__K", 0xF00A, 0xF0FF⟩
  | .ldDTVx _ => ⟨"LD_DT__Vx", 0xF015, 0xF0FF⟩
  | .ldSTVx _ => ⟨"LD_ST__Vx", 0xF018, 0xF0FF⟩
  | .addI _ => ⟨"ADD_I__Vx", 0xF01E, 0xF0FF⟩
  | .ldF _ => ⟨"LD_F__Vx", 0xF029, 0xF0FF⟩
  | .ldB _ => ⟨"LD_B__Vx", 0xF033, 0xF0FF⟩
  | .storeRegs _ => ⟨"LD__I___Vx", 0xF055, 0xF0FF⟩
  | .loadRegs _ => ⟨"LD_Vx___I", 0xF065, 0xF0FF⟩

/-- The 34 rows of R58 in the table's order. -/
def opcodeTable : List OpcodeRow :=
  [Instr.cls, .ret, .jp 0, .call 0, .seImm 0 0, .sneImm 0 0, .seReg 0 0].map rowOf ++
  [Instr.ldImm 0 0, .addImm 0 0, .ldReg 0 0, .orReg 0 0, .andReg 0 0, .xorReg 0 0, .addReg 0 0, .subReg 0 0].map rowOf ++
  [Instr.shrReg 0 0, .subnReg 0 0, .shlReg 0 0, .sneReg 0 0, .ldI 0, .jpV0 0, .rnd 0 0, .drw 0 0 0, .skp 0].map rowOf ++
  [Instr.sknp 0, .ldVxDT 0, .ldVxK 0, .ldDTVx 0, .ldSTVx 0, .addI 0, .ldF 0, .ldB 0, .storeRegs 0, .loadRegs 0].map rowOf

/-! ### The host's entry -/

/-- The instruction the decoder reads from a word numbered as `spec/opcode_table.json` numbers it: the low `nbits` bits of
`w`, bits above zero, laid out as the two bytes R32 stores (log entry 13). -/
def decodeTableWord (nbits w : Nat) : Option Instr :=
  let op : OpWord := BitVec.ofNat 16 (w % 2 ^ nbits)
  match decode (wordOfBytes (op.extractLsb' 8 8) (op.extractLsb' 0 8)) with
  | .ok i => some i
  | .error _ => none

end Sys2Proof
end

