-- ==== Sys2Proof/Config.lean ====
section
/-! DEFINITION. The parameters the spec leaves to the implementation (`00_scope.md` R5) and the one free value of the
machine, the random byte of `CXNN` (`41_alu.md` R93, `70_reset_and_hazards.md` R158). The parameters' default values
are in Machine/Defaults.lean. -/

namespace Sys2Proof

/-- The five core-side parameters of R5, each one field, in the order of the spec's table. -/
structure Config where
  /-- `STACK_DEPTH`: how many return addresses the call stack holds (R16; D1). -/
  stackDepth : Nat
  /-- `FONT_BASE`: the address of the font table (R25; D2). -/
  fontBase : Addr
  /-- `FONT_TABLE`: the 80 bytes of the font, glyph by glyph, top row first (R25; D3). -/
  fontTable : List Byte
  /-- `SHIFT_USES_VY`: the shifts `8XY6` and `8XYE` take `V[y]`, not `V[x]`, as their source (R90, R92; D4). -/
  shiftUsesVY : Bool
  /-- `FX1E_SETS_VF`: `FX1E` writes the index overflow to `V[0xF]` (R102; D5). -/
  fx1eSetsVF : Bool
  deriving DecidableEq, Repr

/-- What R5 requires of the parameters: `STACK_DEPTH ≥ 1`, an 80-byte font, `FONT_BASE + 80 ≤ 0x200`. -/
abbrev Config.wf (c : Config) : Prop :=
  1 ≤ c.stackDepth ∧ c.fontTable.length = 80 ∧ c.fontBase.toNat + 80 ≤ 0x200

/-- The free value of the machine: the random byte of the `k`-th draw (R93: "a fresh 8-bit value on which no rule places
any constraint"). It has no body, so no proof can use what it is. DESIGN CHOICE in form, safe: log entry 5. -/
opaque Config.randomByte : Nat → Byte

end Sys2Proof
end

