-- ==== Sys2Proof/Machine/Defaults.lean ====
section
/-! DEFINITION. The default parameters of `00_scope.md` R5, the font table of `10_state.md` R25, and the contents of
memory right after `Reset` (R26, `70_reset_and_hazards.md` R150). -/

namespace Sys2Proof

/-- The customary hexadecimal font, glyph by glyph, top row first, as R25 tabulates it (the spec marks the bytes as
general knowledge, D3: log entry 2). -/
def fontDefault : List Byte :=
  [0xF0, 0x90, 0x90, 0x90, 0xF0] ++ [0x20, 0x60, 0x20, 0x20, 0x70] ++
  [0xF0, 0x10, 0xF0, 0x80, 0xF0] ++ [0xF0, 0x10, 0xF0, 0x10, 0xF0] ++
  [0x90, 0x90, 0xF0, 0x10, 0x10] ++ [0xF0, 0x80, 0xF0, 0x10, 0xF0] ++
  [0xF0, 0x80, 0xF0, 0x90, 0xF0] ++ [0xF0, 0x10, 0x20, 0x40, 0x40] ++
  [0xF0, 0x90, 0xF0, 0x90, 0xF0] ++ [0xF0, 0x90, 0xF0, 0x10, 0xF0] ++
  [0xF0, 0x90, 0xF0, 0x90, 0x90] ++ [0xE0, 0x90, 0xE0, 0x90, 0xE0] ++
  [0xF0, 0x80, 0x80, 0x80, 0xF0] ++ [0xE0, 0x90, 0x90, 0x90, 0xE0] ++
  [0xF0, 0x80, 0xF0, 0x80, 0xF0] ++ [0xF0, 0x80, 0xF0, 0x80, 0x80]

/-- The parameters at the defaults of R5 (decisions D1 to D5: log entry 2). -/
def Config.standard : Config where
  stackDepth := 16
  fontBase := 0x050
  fontTable := fontDefault
  shiftUsesVY := false
  fx1eSetsVF := false

/-- The load address and entry point, `0x200` (R4, R151). -/
def entryPoint : Addr := 0x200

/-- The largest program, `4096 - 0x200 = 3584` bytes (R4). -/
def maxProgram : Nat := 3584

/-- What `MEM[a]` holds right after `Reset` (R26, R150): the font at `FONT_BASE .. FONT_BASE+79`, zero elsewhere. It is also
what an address that the memory list does not list reads as (log entry 4). -/
def Config.resetByte (c : Config) (a : Nat) : Byte :=
  if c.fontBase.toNat ≤ a then c.fontTable.getD (a - c.fontBase.toNat) 0 else 0

end Sys2Proof
end

