-- ==== Sys2Proof/Machine/Memory.lean ====
section
/-! DEFINITION. Memory as plain data: a list of address and byte pairs in one canonical form, read and written one byte at
a time (`20_memory.md` R30 to R33). An address the list does not name reads as its reset contents (log entry 4). Addresses
here are already reduced mod 4096; Ops.lean reduces them (R34). -/

namespace Sys2Proof.Machine

/-- The byte at an address: the first listed one, or the reset contents. -/
def Memory.read (c : Config) : List Host.Cell → Nat → Byte
  | [], a => c.resetByte a
  | (a', b) :: m, a => if a' = a then b else Memory.read c m a

/-- The memory without any entry for an address. -/
def Memory.erase : List Host.Cell → Nat → List Host.Cell
  | [], _ => []
  | (a', b) :: m, a => if a' = a then Memory.erase m a else (a', b) :: Memory.erase m a

/-- The memory with an entry put in front of the first one of a higher address. -/
def Memory.insert : List Host.Cell → Nat → Byte → List Host.Cell
  | [], a, b => [(a, b)]
  | (a', b') :: m, a, b => if a < a' then (a, b) :: (a', b') :: m else (a', b') :: Memory.insert m a b

/-- Write one byte (R33): the old entry goes, and a new one comes only if the byte differs from the reset contents, so that
equal memories are equal lists. -/
def Memory.write (c : Config) (m : List Host.Cell) (a : Nat) (b : Byte) : List Host.Cell :=
  if b = c.resetByte a then Memory.erase m a else Memory.insert (Memory.erase m a) a b

/-- The canonical form: addresses strictly rising, all inside the address space (R30), no entry equal to its reset
contents. -/
def Memory.wf (c : Config) : List Host.Cell → Bool
  | [] => true
  | (a, b) :: m =>
    (a < 4096) && (b != c.resetByte a) && (m.all fun e => decide (a < e.1)) && Memory.wf c m

end Sys2Proof.Machine
end

