-- ==== Sys2Proof/Machine/State.lean ====
section
/-! DEFINITION. The state of the machine: the eleven items of `10_state.md` R10, plus three fields of the model's own
(`cfg`, `draws`, `schedule`; log entries 1, 5, 6); the reasons a step can stop; the state right after `Reset` (R26,
`70_reset_and_hazards.md` R150). -/

namespace Sys2Proof.Machine

/-- The three errors a step can raise (`60_exceptions.md` R130 codes 1 to 3; `10_state.md` R19). They are values of `ERR`,
not faults of the model: raising one is a next state (R136). -/
inductive StepError where
  /-- The fetched word is Illegal (R131). -/
  | decodeError
  /-- A `2NNN` with the call stack full (R132). -/
  | stackOverflow
  /-- A `00EE` with the call stack empty (R133). -/
  | stackUnderflow
  deriving DecidableEq, Repr

/-- What one `Step` reports to the host (`00_scope.md` R9; `60_exceptions.md` R138). It is no state. -/
inductive StepReport where
  /-- The instruction completed. -/
  | ok
  /-- An `FX0A` found no key down; no state changed. -/
  | waitingKey
  /-- A step error, with the address of the failing instruction and its word. -/
  | error (e : StepError) (a : Addr) (op : OpWord)
  /-- `ERR` was already set; no state changed. -/
  | halted
  deriving DecidableEq, Repr

/-- What `Load` reports to the host (`70_reset_and_hazards.md` R152; R134). It is no state. -/
inductive LoadReport where
  /-- The program was copied. -/
  | ok
  /-- The program does not fit; nothing was written. -/
  | romTooLarge (len : Nat)
  deriving DecidableEq, Repr

/-- The 32 rows of 64 cells of the display, row then column (R21). -/
abbrev Display := Vector (Vector Bool 64) 32

/-- The sixteen key latches (R22). -/
abbrev Keypad := Vector Bool 16

/-- The five events by which the machine moves (`00_scope.md` section 5). The random byte of a `Step` is no argument here:
it is the free value `Config.randomByte` (log entries 5, 6). -/
inductive HostEvent where
  /-- Fetch, decode and execute one instruction (R45). -/
  | step
  /-- Decrement the timers (R142). -/
  | tick
  /-- Write all sixteen key latches (R156). -/
  | setKeys (keys : Keypad)
  /-- Copy a program to `0x200` (R152). -/
  | load (bytes : List Byte)
  /-- Reset the machine (R150). -/
  | reset
  deriving DecidableEq, Repr

/-- The machine's state: `10_state.md` R10, then the model's own fields. -/
structure State where
  /-- `V[0..15]` (R11). -/
  v : Vector Byte 16
  /-- `I`, its 12 significant bits (R13; log entry 11). -/
  i : Addr
  /-- `PC`, its 12 significant bits (R14; log entry 11). -/
  pc : Addr
  /-- `SP`, the fill level of the call stack (R16). -/
  sp : Nat
  /-- `STK[0..STACK_DEPTH-1]`, the dead entries included (R16; log entry 12). -/
  stk : List Addr
  /-- `DT`, the delay timer (R17). -/
  dt : Byte
  /-- `ST`, the sound timer (R18). -/
  st : Byte
  /-- `ERR` (R19): `none` is running. -/
  err : Option StepError
  /-- `MEM[0..4095]` (R20), in the canonical form `Memory.wf`: the bytes that differ from their reset contents, by rising
  address (log entry 4). -/
  mem : List Host.Cell
  /-- `DISP[0..31][0..63]` (R21); `true` is lit. -/
  disp : Display
  /-- `KEY[0..15]` (R22); `true` is down. -/
  key : Keypad
  /-- The MODEL's own: the parameters of R5, which no step changes (log entry 1). -/
  cfg : Config
  /-- The MODEL's own: how many random bytes have been drawn (R93; log entry 5). -/
  draws : Nat
  /-- The MODEL's own: the host events still to come, in order; when it is empty the next event is a `Step` (R155; log
  entry 6). -/
  schedule : List HostEvent
  deriving DecidableEq, Repr

/-- Faults of the model: none. The spec gives every `Step`, `Tick`, `SetKeys`, `Load` and `Reset` a result in every state
(`93_implementation_defined.md`), no memory access fails (R35), and the three step errors are next states (R136). With no
constructor, no step can fault, and there is nothing to call safe or unsafe (log entry 7). -/
inductive Fault where
  deriving DecidableEq, Repr

/-- Refusals of the model. -/
inductive Refusal where
  /-- An instruction that has no meaning yet, raised by `exec`'s arm for it; safe. No arm raises it: every instruction has
  its meaning. -/
  | notModelled (mnemonic : String)
  deriving DecidableEq, Repr

/-- The machine right after `Reset`, with the parameters `c` (R26, R150): `PC` at `0x200`, everything else zero, dark, up
and empty, `MEM` at its reset contents. The zeros are the spec's own decisions D18 and D19 (log entries 3, 4). -/
def State.resetWith (c : Config) : State where
  v := Vector.replicate 16 0
  i := 0
  pc := entryPoint
  sp := 0
  stk := List.replicate c.stackDepth 0
  dt := 0
  st := 0
  err := none
  mem := []
  disp := Vector.replicate 32 (Vector.replicate 64 false)
  key := Vector.replicate 16 false
  cfg := c
  draws := 0
  schedule := []

/-- The machine right after `Reset` with the default parameters of R5 (log entries 2, 3). -/
def State.reset : State := State.resetWith Config.standard

end Sys2Proof.Machine
end

