-- ==== Sys2Proof/Machine/Ops.lean ====
section
/-! DEFINITION. The named operations over registers, program counter, call stack, memory and error state that every
meaning is written with (`00_scope.md` R7 to R9; `10_state.md` R11 to R19; `20_memory.md` R31 to R34; `60_exceptions.md` R136). -/

namespace Sys2Proof.Machine

/-! ### Registers -/

/-- `V[0xF]`, the register some instructions also write a flag to (R12). -/
def flagReg : Reg := 15

/-- `V[x]` (R7). -/
def State.getV (s : State) (x : Reg) : Byte := s.v[x]

/-- `V[x] <- b` (R7). No register is hardwired (R11). -/
def State.setV (s : State) (x : Reg) (b : Byte) : State := { s with v := s.v.set x b }

/-- `I <- a` (R13). -/
def State.setI (s : State) (a : Addr) : State := { s with i := a }

/-- `DT <- b` (R17). -/
def State.setDT (s : State) (b : Byte) : State := { s with dt := b }

/-- `ST <- b` (R18). -/
def State.setST (s : State) (b : Byte) : State := { s with st := b }

/-- `DISP <- d`: the display after a clear or a draw (R110). -/
def State.setDisp (s : State) (d : Display) : State := { s with disp := d }

/-- One more random byte has been drawn (log entry 5). -/
def State.countDraw (s : State) : State := { s with draws := s.draws + 1 }

/-! ### Program counter -/

/-- `next = (a + 2) mod 4096`, where `a` is the address the instruction was fetched from (R7, R14). -/
def State.nextPc (s : State) : Addr := s.pc + 2

/-- `PC <- a` (R14). -/
def State.setPc (s : State) (a : Addr) : State := { s with pc := a }

/-- `pc <- next`: what an instruction that is no control transfer ends with (R15 (a)). -/
def State.advance (s : State) : State := s.setPc s.nextPc

/-- How a skip ends (R15 (b), R65): past the next instruction when the condition holds, else at it. -/
def State.skipIf (s : State) (c : Bool) : State := s.setPc (if c then s.nextPc + 2 else s.nextPc)

/-! ### Call stack -/

/-- `STK[k]` (R16). Past the end of the list, where no state of the machine has an entry, it is 0 (log entry 12). -/
def State.stkAt (s : State) (k : Nat) : Addr := s.stk.getD k 0

/-- Push (R16, R68): `STK[SP] <- a; SP <- SP + 1`. -/
def State.push (s : State) (a : Addr) : State := { s with stk := s.stk.set s.sp a, sp := s.sp + 1 }

/-- The first half of pop (R16, R66): `SP <- SP - 1`; the entry popped is then `STK[SP]`, the new `SP`. -/
def State.pop (s : State) : State := { s with sp := s.sp - 1 }

/-! ### Memory -/

/-- `MemRead(addr, 1)`, for any natural number `addr` (R31): the address is reduced mod 4096 (R34). -/
def State.memRead (s : State) (addr : Nat) : Byte := Memory.read s.cfg s.mem (addr % 4096)

/-- `MemRead(addr, 2)`, big-endian, each byte's address reduced by itself (R32). -/
def State.memRead16 (s : State) (addr : Nat) : OpWord := wordOfBytes (s.memRead addr) (s.memRead (addr + 1))

/-- `MemWrite(addr, 1, b)` (R33). -/
def State.memWrite (s : State) (addr : Nat) (b : Byte) : State :=
  { s with mem := Memory.write s.cfg s.mem (addr % 4096) b }

/-- `MemWrite(addr, 2, w)` (`00_scope.md` R8): used by no instruction; `withFetchWord` lays a word out with it. -/
def State.memWrite16 (s : State) (addr : Nat) (w : OpWord) : State :=
  (s.memWrite addr (w.extractLsb' 8 8)).memWrite (addr + 1) (w.extractLsb' 0 8)

/-- Store bytes at ascending addresses from `addr` on, each address reduced by itself (R34): `FX33`, `FX55`, `Load`. -/
def State.storeBytes (s : State) (addr : Nat) : List Byte → State
  | [] => s
  | b :: bs => (s.memWrite addr b).storeBytes (addr + 1) bs

/-- The bytes at ascending addresses from `addr` on. -/
def State.readBytes (s : State) (addr n : Nat) : List Byte := (List.range n).map fun k => s.memRead (addr + k)

/-- The instruction word fetched at `PC` (R45, R32). -/
def State.fetchWord (s : State) : OpWord := s.memRead16 s.pc.toNat

/-! ### Errors -/

/-- Raise an error (`00_scope.md` R9, `60_exceptions.md` R136): `ERR <- e` and nothing else. Every meaning that raises tests
its condition before it writes, so there is no earlier write of the step to discard (R45). There is no handler to go to and
nothing is saved; the return from an error does not exist, only `Reset` clears it (R141). -/
def State.raise (s : State) (e : StepError) : State := { s with err := some e }

/-- `ERR != None`: the error halt (R137). -/
def State.halted (s : State) : Bool := s.err.isSome

/-- The numeric code of `ERR` (R130). -/
def errCode : Option StepError → Nat
  | none => 0
  | some .decodeError => 1
  | some .stackOverflow => 2
  | some .stackUnderflow => 3

/-- The numeric code of a `Load` result (R130): 4 is `RomTooLarge`. -/
def loadCode : LoadReport → Nat
  | .ok => 0
  | .romTooLarge _ => 4

end Sys2Proof.Machine
end

