-- ==== Sys2Proof/Machine/Flags.lean ====
section
/-! DEFINITION. The flag computations (`10_state.md` R12; `41_alu.md` R80) and the one way a flag reaches `V[0xF]` (R81).
Results are computed exactly on natural numbers and narrowed at the end. -/

namespace Sys2Proof.Machine

/-- A flag as the 8-bit number 0 or 1, never another value (R12). -/
def flagByte (b : Bool) : Byte := if b then 1 else 0

/-- The exact sum of R88, `0 .. 510`. -/
def exactSum (p q : Byte) : Nat := p.toNat + q.toNat

/-- Carry of an 8-bit addition: the exact sum exceeds 255 (R80, R88). -/
def carryOut (p q : Byte) : Bool := 255 < exactSum p q

/-- Not-borrow of `p - q`: `p >= q` (R80, R89). -/
def notBorrow (p q : Byte) : Bool := q.toNat ≤ p.toNat

/-- The bit a right shift drops: bit 0 of the source (R90). -/
def lowBit (p : Byte) : Bool := p.getLsbD 0

/-- The bit a left shift drops: bit 7 of the source (R92). -/
def highBit (p : Byte) : Bool := p.getLsbD 7

/-- The exact sum of R102, `0 .. 0x10FE`. -/
def exactIndexSum (i : Addr) (p : Byte) : Nat := i.toNat + p.toNat

/-- Index overflow: the sum exceeds the 12 significant bits (R102). -/
def indexOverflow (i : Addr) (p : Byte) : Bool := 0xFFF < exactIndexSum i p

/-- The end of every flag-writing ALU instruction (R81): the result to `V[x]`, then the flag to `V[0xF]`, so that with
`x = 0xF` the flag is what remains; then `pc <- next`. -/
def State.finishFlagged (s : State) (x : Reg) (r : Byte) (flag : Bool) : State :=
  ((s.setV x r).setV flagReg (flagByte flag)).advance

end Sys2Proof.Machine
end

