-- ==== Sys2Proof/Machine/Operands.lean ====
section
/-! DEFINITION. The operand forms beyond a plain register or immediate: the shift source (`41_alu.md` R90, R92), the key number
(`44_keypad_timers.md` R120), the font address (`42_index_memory.md` R103), the register range of `FX55` and `FX65` (R105,
R106), the decimal digits of `FX33` (R104) and the effective address `EA(k)` (R100). -/

namespace Sys2Proof.Machine

/-- The source of `8XY6` and `8XYE`: `V[y]` when `SHIFT_USES_VY`, else `V[x]` (R90, R92). -/
def State.shiftSource (s : State) (x y : Reg) : Byte := if s.cfg.shiftUsesVY then s.getV y else s.getV x

/-- The low nibble of a register: a key number (R120) or a font digit (R103); bits 7:4 are ignored. -/
def State.lowNibble (s : State) (x : Reg) : Fin 16 := Fin.ofNat 16 (s.getV x).toNat

/-- `KEY[k]` (R22). -/
def State.keyDown (s : State) (k : Fin 16) : Bool := s.key[k]

/-- The least key that is down, if any (R126). -/
def State.firstKeyDown (s : State) : Option (Fin 16) := (List.finRange 16).find? s.keyDown

/-- `FONT_BASE + 5 * d`, the address of the glyph of digit `d` (R103). -/
def glyphAddr (c : Config) (d : Fin 16) : Addr := c.fontBase + BitVec.ofNat 12 (5 * d.val)

/-- `EA(k) = (I + k) mod 4096` (R100). -/
def State.ea (s : State) (k : Nat) : Nat := (s.i.toNat + k) % 4096

/-- `V[0] .. V[x]`, inclusive (R105). -/
def State.regsUpTo (s : State) (x : Reg) : List Byte := s.v.toList.take (x.val + 1)

/-- The hundreds, tens and ones digit of a byte, each a whole byte (R104). -/
def bcdDigits (b : Byte) : List Byte :=
  [BitVec.ofNat 8 (b.toNat / 100), BitVec.ofNat 8 (b.toNat / 10 % 10), BitVec.ofNat 8 (b.toNat % 10)]

/-- The loop of `FX65` over its first `n` registers (R106): `V[k] <- MemRead((I + k) mod 4096, 1)` for `k < n`, in order. -/
def State.loadFirst (s : State) : Nat → State
  | 0 => s
  | k + 1 =>
    let t := s.loadFirst k
    if h : k < 16 then t.setV ⟨k, h⟩ (t.memRead (t.ea k)) else t

end Sys2Proof.Machine
end

