-- ==== Sys2Proof/Machine/Alu.lean ====
section
/-! DEFINITION. The register load, ALU and random instructions (`41_alu.md` R82 to R93). Every one ends with `pc <- next`,
raises no error and touches no state but `V` and `PC`. -/

namespace Sys2Proof.Machine

open Host (Outcome)

/-- `6XNN` LD Vx, nn (R82). -/
def execLdImm (x : Reg) (nn : Byte) (s : State) : Outcome State Fault Refusal := .next (s.setV x nn).advance

/-- `7XNN` ADD Vx, nn (R83): wraps, writes no flag. -/
def execAddImm (x : Reg) (nn : Byte) (s : State) : Outcome State Fault Refusal :=
  .next (s.setV x (BitVec.ofNat 8 (exactSum (s.getV x) nn))).advance

/-- `8XY0` LD Vx, Vy (R84). -/
def execLdReg (x y : Reg) (s : State) : Outcome State Fault Refusal := .next (s.setV x (s.getV y)).advance

/-- `8XY1` OR Vx, Vy (R85): `V[0xF]` is not written. -/
def execOrReg (x y : Reg) (s : State) : Outcome State Fault Refusal := .next (s.setV x (s.getV x ||| s.getV y)).advance

/-- `8XY2` AND Vx, Vy (R86): `V[0xF]` is not written. -/
def execAndReg (x y : Reg) (s : State) : Outcome State Fault Refusal := .next (s.setV x (s.getV x &&& s.getV y)).advance

/-- `8XY3` XOR Vx, Vy (R87): `V[0xF]` is not written. -/
def execXorReg (x y : Reg) (s : State) : Outcome State Fault Refusal := .next (s.setV x (s.getV x ^^^ s.getV y)).advance

/-- `8XY4` ADD Vx, Vy (R88): the flag is the carry. -/
def execAddReg (x y : Reg) (s : State) : Outcome State Fault Refusal :=
  .next (s.finishFlagged x (BitVec.ofNat 8 (exactSum (s.getV x) (s.getV y))) (carryOut (s.getV x) (s.getV y)))

/-- `8XY5` SUB Vx, Vy (R89): `V[x] - V[y]`, the flag is not-borrow. -/
def execSubReg (x y : Reg) (s : State) : Outcome State Fault Refusal :=
  .next (s.finishFlagged x (s.getV x - s.getV y) (notBorrow (s.getV x) (s.getV y)))

/-- `8XY6` SHR Vx, Vy (R90): the flag is the bit shifted out. -/
def execShrReg (x y : Reg) (s : State) : Outcome State Fault Refusal :=
  .next (s.finishFlagged x (s.shiftSource x y >>> 1) (lowBit (s.shiftSource x y)))

/-- `8XY7` SUBN Vx, Vy (R91): `V[y] - V[x]`, the flag is not-borrow. -/
def execSubnReg (x y : Reg) (s : State) : Outcome State Fault Refusal :=
  .next (s.finishFlagged x (s.getV y - s.getV x) (notBorrow (s.getV y) (s.getV x)))

/-- `8XYE` SHL Vx, Vy (R92): the flag is the bit shifted out. -/
def execShlReg (x y : Reg) (s : State) : Outcome State Fault Refusal :=
  .next (s.finishFlagged x (s.shiftSource x y <<< 1) (highBit (s.shiftSource x y)))

/-- `CXNN` with the random byte given (R93): `V[x] <- rnd & nn`. -/
def State.loadRandom (s : State) (x : Reg) (nn rnd : Byte) : State := (s.setV x (rnd &&& nn)).advance

/-- `CXNN` RND Vx, nn (R93): the byte is the free value of this draw, and the next draw is another (log entry 5). -/
def execRnd (x : Reg) (nn : Byte) (s : State) : Outcome State Fault Refusal :=
  .next (s.loadRandom x nn (Config.randomByte s.draws)).countDraw

end Sys2Proof.Machine
end

