-- ==== Sys2Proof/Machine/ControlFlow.lean ====
section
/-! DEFINITION. The control transfer instructions (`40_control_flow.md` R65 to R73). -/

namespace Sys2Proof.Machine

open Host (Outcome)

/-- `00EE` RET (R66): the stack empty raises `StackUnderflow`; else pop, and `pc <- STK[SP]`, the new `SP`. -/
def execRet (s : State) : Outcome State Fault Refusal :=
  if s.sp = 0 then .next (s.raise .stackUnderflow)
  else .next (s.pop.setPc (s.pop.stkAt s.pop.sp))

/-- `1NNN` JP nnn (R67): `pc <- nnn`. -/
def execJp (nnn : Addr) (s : State) : Outcome State Fault Refusal := .next (s.setPc nnn)

/-- `2NNN` CALL nnn (R68): the stack full raises `StackOverflow`; else push `next`, and `pc <- nnn`. -/
def execCall (nnn : Addr) (s : State) : Outcome State Fault Refusal :=
  if s.sp = s.cfg.stackDepth then .next (s.raise .stackOverflow)
  else .next ((s.push s.nextPc).setPc nnn)

/-- `3XNN` SE Vx, nn (R69). -/
def execSeImm (x : Reg) (nn : Byte) (s : State) : Outcome State Fault Refusal := .next (s.skipIf (s.getV x == nn))

/-- `4XNN` SNE Vx, nn (R70). -/
def execSneImm (x : Reg) (nn : Byte) (s : State) : Outcome State Fault Refusal := .next (s.skipIf (s.getV x != nn))

/-- `5XY0` SE Vx, Vy (R71). -/
def execSeReg (x y : Reg) (s : State) : Outcome State Fault Refusal := .next (s.skipIf (s.getV x == s.getV y))

/-- `9XY0` SNE Vx, Vy (R72). -/
def execSneReg (x y : Reg) (s : State) : Outcome State Fault Refusal := .next (s.skipIf (s.getV x != s.getV y))

/-- `BNNN` JP V0, nnn (R73): `pc <- (nnn + zext_12(V[0])) mod 4096`, always `V[0]`. -/
def execJpV0 (nnn : Addr) (s : State) : Outcome State Fault Refusal := .next (s.setPc (nnn + (s.getV 0).setWidth 12))

end Sys2Proof.Machine
end

