-- ==== Sys2Proof/Machine/Screen.lean ====
section
/-! DEFINITION. The display buffer's two operations, `clear()` and `draw(x, y, spriteBytes)` (`43_display.md` R110 to
R112). Columns count `px`, rows count `py`; a cell is `DISP[py][px]` (`10_state.md` R21). -/

namespace Sys2Proof.Machine

/-- The cell at column `px`, row `py`: `DISP[py][px]`. -/
def Display.pixel (d : Display) (px : Fin 64) (py : Fin 32) : Bool := d[py][px]

/-- The display with one cell inverted. -/
def Display.flip (d : Display) (px : Fin 64) (py : Fin 32) : Display :=
  d.set py (d[py].set px (!Display.pixel d px py))

/-- All cells dark (R111). -/
def Display.dark : Display := Vector.replicate 32 (Vector.replicate 64 false)

/-- One pixel of a draw (R112, the body of the inner loop): sprite bit `7 - c` of the row byte `b`, at column
`(x0 + c) mod 64` of row `(y0 + r) mod 32`. A 0 bit leaves the cell alone; a 1 bit inverts it, and a lit cell under it is a
collision. -/
def Display.drawPixel (b : Byte) (x0 y0 r : Nat) (acc : Display × Bool) (c : Nat) : Display × Bool :=
  let px := Fin.ofNat 64 (x0 + c)
  let py := Fin.ofNat 32 (y0 + r)
  if b.getLsbD (7 - c) then (acc.1.flip px py, acc.2 || acc.1.pixel px py) else acc

/-- One row of a draw (R112, the inner loop): its eight pixels, `c = 0` leftmost. -/
def Display.drawRow (b : Byte) (x0 y0 r : Nat) (acc : Display × Bool) : Display × Bool :=
  (List.range 8).foldl (Display.drawPixel b x0 y0 r) acc

/-- The rows of a draw (R112, the outer loop), from row `r` on; the result is the display and whether any lit cell was
turned off. -/
def Display.drawRows (x0 y0 : Nat) : Nat → List Byte → Display × Bool → Display × Bool
  | _, [], acc => acc
  | r, b :: bs, acc => Display.drawRows x0 y0 (r + 1) bs (Display.drawRow b x0 y0 r acc)

/-- `draw(x, y, spriteBytes)`: the start position is reduced modulo the display size (R112 (c)). -/
def Display.draw (d : Display) (x y : Nat) (sprite : List Byte) : Display × Bool :=
  Display.drawRows (x % 64) (y % 32) 0 sprite (d, false)

end Sys2Proof.Machine
end

