-- ==== Sys2Proof/Machine/DisplayInstrs.lean ====
section
/-! DEFINITION. The display instructions (`43_display.md` R111, R112). -/

namespace Sys2Proof.Machine

open Host (Outcome)

/-- `00E0` CLS (R111): every cell dark; `V[0xF]` is not written. -/
def execCls (s : State) : Outcome State Fault Refusal := .next (s.setDisp Display.dark).advance

/-- The draw of a `DXYN` (R112): the `n` bytes at `I`, at the position `V[x]`, `V[y]`. -/
def State.drawn (s : State) (x y : Reg) (n : Nat) : Display × Bool :=
  s.disp.draw (s.getV x).toNat (s.getV y).toNat (s.readBytes s.i.toNat n)

/-- `DXYN` DRW Vx, Vy, n (R112): XOR the sprite into the display; the collision goes to `V[0xF]`, last (R81). -/
def execDrw (x y : Reg) (n : Nat) (s : State) : Outcome State Fault Refusal :=
  .next ((s.setDisp (s.drawn x y n).1).setV flagReg (flagByte (s.drawn x y n).2)).advance

end Sys2Proof.Machine
end

