-- ==== Sys2Proof/Machine/IndexMemory.lean ====
section
/-! DEFINITION. The index register and memory instructions (`42_index_memory.md` R100 to R106). Every one ends with
`pc <- next` and raises no error; `FX33`, `FX55` and `FX65` leave `I` as it was (R100). -/

namespace Sys2Proof.Machine

open Host (Outcome)

/-- `ANNN` LD I, nnn (R101). -/
def execLdI (nnn : Addr) (s : State) : Outcome State Fault Refusal := .next (s.setI nnn).advance

/-- `FX1E` ADD I, Vx (R102): the index wraps; `V[0xF]` gets the overflow only when `FX1E_SETS_VF`, and last (R81). -/
def execAddI (x : Reg) (s : State) : Outcome State Fault Refusal :=
  let t := s.setI (BitVec.ofNat 12 (exactIndexSum s.i (s.getV x)))
  .next (if s.cfg.fx1eSetsVF then t.setV flagReg (flagByte (indexOverflow s.i (s.getV x))) else t).advance

/-- `FX29` LD F, Vx (R103): `I` gets the address of the glyph of the low nibble of `V[x]`; no memory is read. -/
def execLdF (x : Reg) (s : State) : Outcome State Fault Refusal :=
  .next (s.setI (glyphAddr s.cfg (s.lowNibble x))).advance

/-- `FX33` LD B, Vx (R104): hundreds at `I`, tens at `I + 1`, ones at `I + 2`. -/
def execLdB (x : Reg) (s : State) : Outcome State Fault Refusal :=
  .next (s.storeBytes s.i.toNat (bcdDigits (s.getV x))).advance

/-- `FX55` LD [I], Vx (R105): `V[0]` to `V[x]`, inclusive, at `I`, `I + 1`, ... -/
def execStoreRegs (x : Reg) (s : State) : Outcome State Fault Refusal :=
  .next (s.storeBytes s.i.toNat (s.regsUpTo x)).advance

/-- `FX65` LD Vx, [I] (R106): `V[0]` to `V[x]`, inclusive, from `I`, `I + 1`, ... -/
def execLoadRegs (x : Reg) (s : State) : Outcome State Fault Refusal := .next (s.loadFirst (x.val + 1)).advance

end Sys2Proof.Machine
end

