-- ==== Sys2Proof/Machine/KeypadTimers.lean ====
section
/-! DEFINITION. The keypad and timer instructions (`44_keypad_timers.md` R121 to R126). None raises an error or writes a flag. -/

namespace Sys2Proof.Machine

open Host (Outcome)

/-- `EX9E` SKP Vx (R121): skip if the key numbered by the low nibble of `V[x]` is down. -/
def execSkp (x : Reg) (s : State) : Outcome State Fault Refusal := .next (s.skipIf (s.keyDown (s.lowNibble x)))

/-- `EXA1` SKNP Vx (R122): skip if that key is not down. -/
def execSknp (x : Reg) (s : State) : Outcome State Fault Refusal := .next (s.skipIf (!s.keyDown (s.lowNibble x)))

/-- `FX07` LD Vx, DT (R123). -/
def execLdVxDT (x : Reg) (s : State) : Outcome State Fault Refusal := .next (s.setV x s.dt).advance

/-- `FX15` LD DT, Vx (R124). -/
def execLdDTVx (x : Reg) (s : State) : Outcome State Fault Refusal := .next (s.setDT (s.getV x)).advance

/-- `FX18` LD ST, Vx (R125). -/
def execLdSTVx (x : Reg) (s : State) : Outcome State Fault Refusal := .next (s.setST (s.getV x)).advance

/-- `FX0A` LD Vx, K (R126): with no key down nothing changes, and the next step fetches the same word again; else `V[x]` gets
the number of the least key that is down, and `pc <- next`. The latch is not cleared. -/
def execLdVxK (x : Reg) (s : State) : Outcome State Fault Refusal :=
  match s.firstKeyDown with
  | none => .next s
  | some k => .next (s.setV x (BitVec.ofNat 8 k.val)).advance

end Sys2Proof.Machine
end

