-- ==== Sys2Proof/Machine/Events.lean ====
section
/-! DEFINITION. The host's events other than `Step`: `Tick` (`60_exceptions.md` R142), `SetKeys`, `Load` and `Reset`
(`70_reset_and_hazards.md` R156, R152, R150). -/

namespace Sys2Proof.Machine

/-- A timer after one decrement: one less while positive, never below 0 (R142). -/
def decremented (b : Byte) : Byte := if 0 < b.toNat then b - 1 else b

/-- `Tick` (R142): both timers, each by itself; nothing while halted (R137). -/
def State.tick (s : State) : State :=
  if s.halted then s else { s with dt := decremented s.dt, st := decremented s.st }

/-- `SetKeys(k)` (R156): all sixteen latches, in any state. -/
def State.setKeys (s : State) (k : Keypad) : State := { s with key := k }

/-- What `Load(bytes)` reports (R152, R134). -/
def loadReport (bytes : List Byte) : LoadReport :=
  if maxProgram < bytes.length then .romTooLarge bytes.length else .ok

/-- `Load(bytes)` (R152): a program that fits is copied to `0x200`; one that does not writes nothing and leaves `ERR`. -/
def State.load (s : State) (bytes : List Byte) : State :=
  if maxProgram < bytes.length then s else s.storeBytes entryPoint.toNat bytes

/-- `Reset` (R150), in any state: every item of the spec's state to its reset value. The parameters, the count of draws
and the host's remaining events are not the machine's state and stay (log entry 10). -/
def State.resetEvent (s : State) : State :=
  { State.resetWith s.cfg with draws := s.draws, schedule := s.schedule }

/-- `tone = (ST != 0)`, the signal the audio adapter plays (R144). -/
def State.tone (s : State) : Bool := s.st != 0

end Sys2Proof.Machine
end

