-- ==== Sys2Proof/Machine/Cycle.lean ====
section
/-! DEFINITION. The step cycle (`30_encoding.md` R45), one host event of any kind, and what a step reports to the host
(`60_exceptions.md` R138). -/

namespace Sys2Proof.Machine

open Host (Outcome)

/-- The `Step` event (R45): halted, nothing changes (R137); else fetch at `PC`, decode, and execute, or raise
`DecodeError`. -/
def stepEvent (s : State) : Outcome State Fault Refusal :=
  if s.halted then .next s
  else
    match decode s.fetchWord with
    | .error _ => .next (s.raise .decodeError)
    | .ok i => exec i s

/-- One host event (`00_scope.md` section 5). -/
def hostEvent (e : HostEvent) (s : State) : Outcome State Fault Refusal :=
  match e with
  | .step => stepEvent s
  | .tick => .next s.tick
  | .setKeys k => .next (s.setKeys k)
  | .load bytes => .next (s.load bytes)
  | .reset => .next s.resetEvent

/-- What a `Step` taken in this state reports (R9, R138): `Halted`; an error with the address and the word; `WaitingKey`
for an `FX0A` with no key down; else `Ok`. -/
def stepReport (s : State) : StepReport :=
  if s.halted then .halted
  else
    match decode s.fetchWord with
    | .error _ => .error .decodeError s.pc s.fetchWord
    | .ok (.call _) => if s.sp = s.cfg.stackDepth then .error .stackOverflow s.pc s.fetchWord else .ok
    | .ok .ret => if s.sp = 0 then .error .stackUnderflow s.pc s.fetchWord else .ok
    | .ok (.ldVxK _) => if s.firstKeyDown.isNone then .waitingKey else .ok
    | .ok _ => .ok

end Sys2Proof.Machine
end

