-- ==== Sys2Proof/Machine/Step.lean ====
section
/-! DEFINITION. The machine's step: the next host event, which is a `Step` when none is scheduled (log entry 6); and how the
host lays an instruction where the next step fetches it (log entry 13). -/

namespace Sys2Proof.Machine

/-- One event of the machine: the first scheduled one, or a `Step`. -/
def step (s : State) : Host.Outcome State Fault Refusal :=
  match s.schedule with
  | [] => stepEvent s
  | e :: rest => hostEvent e { s with schedule := rest }

/-- The state with an instruction's word (the low `nbits` bits of `w`, bits above zero) at `PC`, high byte first, not
halted and with no event before the next `Step`, so that the very next `step` runs it (log entry 13). -/
def State.withFetchWord (s : State) (nbits w : Nat) : State :=
  { s.memWrite16 s.pc.toNat (BitVec.ofNat 16 (w % 2 ^ nbits)) with err := none, schedule := [] }

end Sys2Proof.Machine
end

