-- ==== Sys2Proof/Safety.lean ====
section
/-! DEFINITION. What claims are stated in: the invariant of every state of the machine, the items of state and what two
states agree on, the access matrix of `10_state.md` R28, the cells a sprite covers, and the reachable states. -/

namespace Sys2Proof.Machine

/-! ### The invariant -/

/-- What holds of every state of the machine: the parameters are as R5 requires, `0 ≤ SP ≤ STACK_DEPTH` and `STK` has
`STACK_DEPTH` entries (R16), memory is in canonical form (log entry 4). -/
abbrev State.Inv (s : State) : Prop :=
  s.cfg.wf ∧ s.sp ≤ s.cfg.stackDepth ∧ s.stk.length = s.cfg.stackDepth ∧ Memory.wf s.cfg s.mem = true

/-! ### Items of state and frames -/

/-- One item of state (R10), each register, stack entry, byte of memory, cell and latch by itself; and the model's own
fields. -/
inductive Item where
  | v (r : Reg)
  | i
  | pc
  | sp
  | stk (k : Nat)
  | dt
  | st
  | err
  | mem (a : Addr)
  | disp (px : Fin 64) (py : Fin 32)
  | key (k : Fin 16)
  | cfg
  | draws
  | schedule
  deriving DecidableEq, Repr

/-- Two states hold the same value of an item. Memory is compared by reading the byte. -/
def Item.same (it : Item) (s t : State) : Prop :=
  match it with
  | .v r => s.getV r = t.getV r
  | .i => s.i = t.i
  | .pc => s.pc = t.pc
  | .sp => s.sp = t.sp
  | .stk k => s.stkAt k = t.stkAt k
  | .dt => s.dt = t.dt
  | .st => s.st = t.st
  | .err => s.err = t.err
  | .mem a => s.memRead a.toNat = t.memRead a.toNat
  | .disp px py => s.disp.pixel px py = t.disp.pixel px py
  | .key k => s.keyDown k = t.keyDown k
  | .cfg => s.cfg = t.cfg
  | .draws => s.draws = t.draws
  | .schedule => s.schedule = t.schedule

/-- The frame: from `s` to `t` no item changes but those named. -/
def ChangesOnly (named : Item → Prop) (s t : State) : Prop := ∀ it, ¬ named it → it.same s t

/-- The items of a list, as the argument of `ChangesOnly`. -/
def among (l : List Item) (it : Item) : Prop := it ∈ l

/-- The `n` bytes of memory from `EA(0)` on: `EA(k) = (I + k) mod 4096` for `k < n` (R100). -/
def bytesAtIndex (s : State) (n : Nat) (it : Item) : Prop := ∃ k a, k < n ∧ it = .mem a ∧ a.toNat = s.ea k

/-- The registers `V[0]` to `V[x]` (R11, R105, R106). -/
def regsTo (x : Reg) (it : Item) : Prop := ∃ r, r ≤ x ∧ it = .v r

/-- All of the display. -/
def wholeDisplay (it : Item) : Prop := ∃ px py, it = .disp px py

/-- All of the keypad. -/
def wholeKeypad (it : Item) : Prop := ∃ k, it = .key k

/-- The frame of a register-only instruction that does not jump: it changes `PC` and the registers of the list. -/
def ChangesRegs (rs : List Reg) (s t : State) : Prop := ChangesOnly (fun it => it = .pc ∨ ∃ r ∈ rs, it = .v r) s t

/-! ### The access matrix (R28) -/

/-- The `w` columns of R28: what an instruction may write. A raise writes `ERR` alone (R136), and a waiting `FX0A` writes
nothing (R126). -/
def writes (instr : Instr) (s : State) (it : Item) : Prop :=
  match instr with
  | .cls => it = .pc ∨ wholeDisplay it
  | .ret => if s.sp = 0 then it = .err else it = .pc ∨ it = .sp
  | .jp _ | .jpV0 _ => it = .pc
  | .call _ => if s.sp = s.cfg.stackDepth then it = .err else it = .pc ∨ it = .sp ∨ it = .stk s.sp
  | .seImm _ _ | .sneImm _ _ | .seReg _ _ | .sneReg _ _ | .skp _ | .sknp _ => it = .pc
  | .ldImm x _ | .addImm x _ | .ldReg x _ | .orReg x _ | .andReg x _ | .xorReg x _ | .ldVxDT x => it = .pc ∨ it = .v x
  | .addReg x _ | .subReg x _ | .shrReg x _ | .subnReg x _ | .shlReg x _ => it = .pc ∨ it = .v x ∨ it = .v flagReg
  | .ldI _ | .ldF _ => it = .pc ∨ it = .i
  | .rnd x _ => it = .pc ∨ it = .v x ∨ it = .draws
  | .drw _ _ _ => it = .pc ∨ it = .v flagReg ∨ wholeDisplay it
  | .ldVxK x => s.firstKeyDown ≠ none ∧ (it = .pc ∨ it = .v x)
  | .ldDTVx _ => it = .pc ∨ it = .dt
  | .ldSTVx _ => it = .pc ∨ it = .st
  | .addI _ => it = .pc ∨ it = .i ∨ (s.cfg.fx1eSetsVF = true ∧ it = .v flagReg)
  | .ldB _ => it = .pc ∨ bytesAtIndex s 3 it
  | .storeRegs x => it = .pc ∨ bytesAtIndex s (x.val + 1) it
  | .loadRegs x => it = .pc ∨ regsTo x it

/-- The `r` columns of R28, with `PC` for every instruction (`next` is made from it), the parameters where a rule names
them (R5), and the count of draws for `CXNN`'s random byte. -/
def reads (instr : Instr) (s : State) (it : Item) : Prop :=
  it = .pc ∨
  match instr with
  | .cls | .jp _ | .ldImm _ _ | .ldI _ => False
  | .ret => it = .sp ∨ it = .stk (s.sp - 1)
  | .call _ => it = .sp ∨ it = .cfg
  | .seImm x _ | .sneImm x _ | .addImm x _ | .ldDTVx x | .ldSTVx x => it = .v x
  | .seReg x y | .sneReg x y | .orReg x y | .andReg x y | .xorReg x y => it = .v x ∨ it = .v y
  | .addReg x y | .subReg x y | .subnReg x y => it = .v x ∨ it = .v y
  | .shrReg x y | .shlReg x y => it = .cfg ∨ (if s.cfg.shiftUsesVY then it = .v y else it = .v x)
  | .ldReg _ y => it = .v y
  | .jpV0 _ => it = .v 0
  | .rnd _ _ => it = .draws
  | .drw x y n => it = .v x ∨ it = .v y ∨ it = .i ∨ bytesAtIndex s n it ∨ wholeDisplay it
  | .skp x | .sknp x => it = .v x ∨ it = .key (s.lowNibble x)
  | .ldVxDT _ => it = .dt
  | .ldVxK _ => wholeKeypad it
  | .addI x => it = .v x ∨ it = .i ∨ it = .cfg
  | .ldF x => it = .v x ∨ it = .cfg
  | .ldB x => it = .v x ∨ it = .i
  | .storeRegs x => it = .i ∨ regsTo x it
  | .loadRegs x => it = .i ∨ bytesAtIndex s (x.val + 1) it

/-! ### The display, pixel by pixel -/

/-- Whether the sprite of `n` rows at `I`, placed at column `x0`, row `y0`, has a 1 bit over the cell (`px`, `py`): row
`r` is the byte at `EA(r)`, its bit 7 leftmost, and positions wrap (R112). -/
def spriteCovers (s : State) (x0 y0 n : Nat) (px : Fin 64) (py : Fin 32) : Prop :=
  ∃ r c, r < n ∧ c < 8 ∧ px.val = (x0 + c) % 64 ∧ py.val = (y0 + r) % 32 ∧
    (s.memRead (s.ea r)).getLsbD (7 - c) = true

/-! ### Runs -/

/-- A safe run keeps clear of the error halt: the state is running (R137, R161). -/
abbrev State.Running (s : State) : Prop := s.err = none

/-- The states that the host's events can bring the machine to, with the parameters `c`: `Reset`, then any events (R155). -/
inductive Reachable (c : Config) : State → Prop where
  | reset : Reachable c (State.resetWith c)
  | event (e : HostEvent) (s t : State) : Reachable c s → hostEvent e s = .next t → Reachable c t

end Sys2Proof.Machine
end

