-- ==== Sys2Proof/Certificates/Slice0/Obligations.lean ====
section
/-! DEFINITION. The statements for the provers, from the numbered rules of `spec/`. Values are stated as the rules give them,
on natural numbers; frames are stated with `ChangesOnly` (Safety.lean): every item of state but the named ones is as it was,
every byte of memory by itself. `next` of the rules is `(PC + 2) mod 4096`. -/

open Sys2Proof Sys2Proof.Machine

/-! ### Encoding -/

/-- Sample words decode to what the spec's decoder says they are, or are Illegal (R50; the words are those of
`95_test_vectors.md` A1 and B1, with `0xD125` from B5 and `0xF255` from R105's example). That `8XY7` is an instruction is the
spec's decision D6 (log entry 15), and that the words without a pattern are Illegal its D7, but for `0x5123` (log entry 14). -/
def Obligations.SampleWordsDecodeAsTheSpecSays : Prop :=
  decode 0x8124 = .ok (.addReg 1 2) ∧ decode 0x00E0 = .ok .cls ∧ decode 0x00EE = .ok .ret ∧
  decode 0x5120 = .ok (.seReg 1 2) ∧ decode 0x8127 = .ok (.subnReg 1 2) ∧ decode 0x812E = .ok (.shlReg 1 2) ∧
  decode 0x9120 = .ok (.sneReg 1 2) ∧ decode 0xE09E = .ok (.skp 0) ∧ decode 0xE1A1 = .ok (.sknp 1) ∧
  decode 0xF10A = .ok (.ldVxK 1) ∧ decode 0x1234 = .ok (.jp 0x234) ∧ decode 0x6A55 = .ok (.ldImm 0xA 0x55) ∧
  decode 0xD125 = .ok (.drw 1 2 5) ∧ decode 0xF255 = .ok (.storeRegs 2) ∧
  (∀ op ∈ [0x0000, 0x00E1, 0x00FF, 0x00C1, 0x0123, 0x5123, 0x8128, 0x812D, 0x812F, 0x9121, 0xE19F, 0xF100, 0xF175, 0xFFFF],
    ∃ e, decode op = .error e)

/-- Decoding the word of a well-formed instruction gives the instruction back, every operand at every value (R47, R48,
R58). -/
def Obligations.DecodeInvertsEncode : Prop :=
  ∀ i : Instr, i.wellFormed = true → decode (encode i) = .ok i

/-- Encoding a decoded instruction gives the word back, and what the decoder answers is well-formed: no bit of a legal word
is dropped, and each has one meaning (R48, R50, R51). -/
def Obligations.EncodeInvertsDecode : Prop :=
  ∀ (op : OpWord) (i : Instr), decode op = .ok i → encode i = op ∧ i.wellFormed = true

/-- The illegal words are exactly those of R52's table (the spec's decision D7 for all but `5XY1`–`5XYF`). -/
def Obligations.IllegalWordsAreExactlyTheTable : Prop :=
  ∀ op : OpWord, (∃ e, decode op = .error e) ↔
    (op.toNat / 4096 = 0x0 ∧ op.toNat ≠ 0x00E0 ∧ op.toNat ≠ 0x00EE) ∨
    (op.toNat / 4096 = 0x5 ∧ op.toNat % 16 ≠ 0) ∨
    (op.toNat / 4096 = 0x8 ∧ (0x8 ≤ op.toNat % 16 ∧ op.toNat % 16 ≤ 0xD ∨ op.toNat % 16 = 0xF)) ∨
    (op.toNat / 4096 = 0x9 ∧ op.toNat % 16 ≠ 0) ∨
    (op.toNat / 4096 = 0xE ∧ op.toNat % 256 ≠ 0x9E ∧ op.toNat % 256 ≠ 0xA1) ∨
    (op.toNat / 4096 = 0xF ∧ op.toNat % 256 ∉ [0x07, 0x0A, 0x15, 0x18, 0x1E, 0x29, 0x33, 0x55, 0x65])

/-- A word is an instruction exactly when it matches that instruction's row of the opcode table, and at most one row
matches (R58). -/
def Obligations.DecoderAgreesWithTheOpcodeTable : Prop :=
  opcodeTable.length = 34 ∧
  (∀ (op : OpWord) (i : Instr), decode op = .ok i →
    rowOf i ∈ opcodeTable ∧ op &&& (rowOf i).mask = (rowOf i).value) ∧
  (∀ (op : OpWord), ∀ r ∈ opcodeTable, op &&& r.mask = r.value → ∃ i, decode op = .ok i ∧ rowOf i = r) ∧
  (∀ (op : OpWord), ∀ r ∈ opcodeTable, ∀ r' ∈ opcodeTable,
    op &&& r.mask = r.value → op &&& r'.mask = r'.value → r = r')

/-! ### The step -/

/-- A fetch reads two bytes, big-endian, each address reduced by itself (R32); the core fetches at `PC` (R45). -/
def Obligations.FetchIsBigEndianAndWraps : Prop :=
  (∀ (s : State) (addr : Nat), (s.memRead16 addr).toNat =
    256 * (s.memRead (addr % 4096)).toNat + (s.memRead ((addr + 1) % 4096)).toNat) ∧
  (∀ s : State, s.fetchWord = s.memRead16 s.pc.toNat)

/-- With no host event scheduled, a running machine runs exactly the instruction that the bytes at `PC` decode to (R45); it
moves `PC` nowhere by itself, that is the instruction's own. -/
def Obligations.StepRunsTheDecodedInstruction : Prop :=
  ∀ (s : State) (i : Instr), s.schedule = [] → s.err = none →
    decode (wordOfBytes (s.memRead s.pc.toNat) (s.memRead (s.pc.toNat + 1))) = .ok i → step s = exec i s

/-- A scheduled host event is the next thing that happens, and is used up by it (the model's form of the host's free order
of events, R155: log entry 6). -/
def Obligations.ScheduledEventHappensNext : Prop :=
  ∀ (s : State) (e : HostEvent) (rest : List HostEvent), s.schedule = e :: rest →
    step s = hostEvent e { s with schedule := rest }

/-- `DecodeError` is raised exactly by a fetched Illegal word, and leaves everything but `ERR` unchanged (R131). -/
def Obligations.OnlyIllegalWordsRaiseDecodeError : Prop :=
  ∀ s : State, s.err = none →
    ((∃ e, decode s.fetchWord = .error e) →
      ∃ t, stepEvent s = .next t ∧ t.err = some .decodeError ∧ ChangesOnly (among [.err]) s t) ∧
    (∀ t, stepEvent s = .next t → t.err = some .decodeError → ∃ e, decode s.fetchWord = .error e)

/-- `StackOverflow` is raised exactly by a `2NNN` on a full stack, `StackUnderflow` exactly by a `00EE` on an empty one, and
neither writes a stack entry, `SP`, `PC` or anything else but `ERR` (R132, R133). -/
def Obligations.StackErrorsHaveExactlyTheirCauses : Prop :=
  ∀ s t : State, s.err = none → stepEvent s = .next t →
    (t.err = some .stackOverflow ↔
      (∃ nnn, decode s.fetchWord = .ok (.call nnn)) ∧ s.sp = s.cfg.stackDepth) ∧
    (t.err = some .stackUnderflow ↔ decode s.fetchWord = .ok .ret ∧ s.sp = 0) ∧
    (t.err = some .stackOverflow ∨ t.err = some .stackUnderflow → ChangesOnly (among [.err]) s t)

/-- The error halt is a fixed point (R137, the spec's decision D20): `Step` and `Tick` change nothing, no event but `Reset`
clears `ERR`, and `Reset` does. -/
def Obligations.OnlyResetLeavesTheErrorHalt : Prop :=
  ∀ s : State, s.err ≠ none →
    hostEvent .step s = .next s ∧ hostEvent .tick s = .next s ∧ stepReport s = .halted ∧
    (∀ e t, e ≠ .reset → hostEvent e s = .next t → t.err = s.err) ∧
    (∃ t, hostEvent .reset s = .next t ∧ t.err = none)

/-- Every step of every state answers a next state: nothing the machine can do is a fault or a refusal
(`93_implementation_defined.md`: every event has a defined result in every state). -/
def Obligations.EveryStepAnswersANextState : Prop :=
  ∀ s : State, ∃ t, step s = .next t

/-- The invariant of Safety.lean is kept by every step: the parameters stay legal, `SP` stays in `0..STACK_DEPTH`, `STK` keeps
its length, memory stays canonical. -/
def Obligations.EveryStepKeepsTheInvariant : Prop :=
  ∀ s t : State, s.Inv → step s = .next t → t.Inv

/-- The reset state meets the invariant, with the default parameters and with any legal ones. -/
def Obligations.ResetMeetsTheInvariant : Prop :=
  State.reset.Inv ∧ ∀ c : Config, c.wf → (State.resetWith c).Inv

/-- Whatever events the host issues after a `Reset`, in whatever order, the machine's state meets the invariant, and the
parameters are those it started with (R155, R23 (b)). -/
def Obligations.EveryReachableStateMeetsTheInvariant : Prop :=
  ∀ (c : Config) (s : State), c.wf → Reachable c s → s.Inv ∧ s.cfg = c

/-- `Reset` in any state (R150, R26): the entry point is the source's, the zeros are the spec's decisions D18 and D19, the
font bytes its D3 (log entries 2, 3, 4). -/
def Obligations.ResetSetsEveryItem : Prop :=
  ∀ s : State, s.cfg.wf → ∃ t, hostEvent .reset s = .next t ∧
    t.pc.toNat = 0x200 ∧ (∀ x, t.getV x = 0) ∧ t.i = 0 ∧ t.sp = 0 ∧ (∀ k, t.stkAt k = 0) ∧ t.dt = 0 ∧ t.st = 0 ∧
    t.err = none ∧ (∀ px py, t.disp.pixel px py = false) ∧ (∀ k, t.keyDown k = false) ∧
    (∀ k (hk : k < s.cfg.fontTable.length), t.memRead (s.cfg.fontBase.toNat + k) = s.cfg.fontTable[k]) ∧
    (∀ a, a < 4096 → (a < s.cfg.fontBase.toNat ∨ s.cfg.fontBase.toNat + 80 ≤ a) → t.memRead a = 0) ∧
    t.cfg = s.cfg

/-- What one `Step` reports (R9, R138; the fields are the spec's decision D16): `Halted` exactly when `ERR` was set; an error
exactly when `ERR` becomes set, with the address of the failing instruction and its word; `WaitingKey` only with nothing
changed; `Ok` only with no error. -/
def Obligations.StepReportTellsTheOutcome : Prop :=
  ∀ s t : State, stepEvent s = .next t →
    (stepReport s = .halted ↔ s.err ≠ none) ∧
    (∀ e a op, stepReport s = .error e a op ↔ s.err = none ∧ t.err = some e ∧ a = s.pc ∧ op = s.fetchWord) ∧
    (stepReport s = .waitingKey ↔
      s.err = none ∧ (∃ x, decode s.fetchWord = .ok (.ldVxK x)) ∧ ∀ k, s.keyDown k = false) ∧
    (stepReport s = .waitingKey → t = s) ∧
    (stepReport s = .ok → s.err = none ∧ t.err = none)

/-- How a step leaves `PC` (R15): (a) `next` after an instruction that is no control transfer; (b) `next`, or two past it
when a skip's condition holds; (c) the target of a jump, a call or a return; (d) unchanged while `FX0A` waits; (e) unchanged by an error. -/
def Obligations.EveryStepLeavesPcAsItsKindSays : Prop :=
  ∀ (s t : State) (i : Instr), s.err = none → decode s.fetchWord = .ok i → stepEvent s = .next t →
    (t.err ≠ none → t.pc = s.pc) ∧
    (t.err = none →
      match i with
      | .seImm x nn => t.pc.toNat = (s.pc.toNat + if s.getV x = nn then 4 else 2) % 4096
      | .sneImm x nn => t.pc.toNat = (s.pc.toNat + if s.getV x = nn then 2 else 4) % 4096
      | .seReg x y => t.pc.toNat = (s.pc.toNat + if s.getV x = s.getV y then 4 else 2) % 4096
      | .sneReg x y => t.pc.toNat = (s.pc.toNat + if s.getV x = s.getV y then 2 else 4) % 4096
      | .skp x => t.pc.toNat = (s.pc.toNat + if s.keyDown (Fin.ofNat 16 (s.getV x).toNat) = true then 4 else 2) % 4096
      | .sknp x => t.pc.toNat = (s.pc.toNat + if s.keyDown (Fin.ofNat 16 (s.getV x).toNat) = true then 2 else 4) % 4096
      | .jp nnn | .call nnn => t.pc = nnn
      | .jpV0 nnn => t.pc.toNat = (nnn.toNat + (s.getV 0).toNat) % 4096
      | .ret => t.pc = s.stkAt (s.sp - 1)
      | .ldVxK _ => if ∀ k, s.keyDown k = false then t.pc = s.pc else t.pc.toNat = (s.pc.toNat + 2) % 4096
      | _ => t.pc.toNat = (s.pc.toNat + 2) % 4096)

/-! ### Whole-machine rules -/

/-- The `w` columns of the access matrix (R28): whatever the instruction and the state, nothing but what the matrix names is
written; a raise writes `ERR` alone. -/
def Obligations.InstructionsWriteOnlyWhatTheMatrixSays : Prop :=
  ∀ (i : Instr) (s t : State), exec i s = .next t → ChangesOnly (writes i s) s t

/-- The `r` columns of the access matrix (R28): two states that agree on what the matrix says an instruction reads (and the
fetch's `PC`) are given the same value by it in everything it writes. -/
def Obligations.InstructionsDependOnlyOnWhatTheMatrixSays : Prop :=
  ∀ (i : Instr) (s s' t t' : State), s.Inv → s'.Inv → (∀ it, reads i s it → it.same s s') →
    exec i s = .next t → exec i s' = .next t' → ∀ it, writes i s it → it.same t t'

/-- The items of state say all there is: two states of the machine that agree on every item are equal, memory included,
which the canonical form makes so (log entry 4). -/
def Obligations.StatesThatAgreeOnEveryItemAreEqual : Prop :=
  ∀ s t : State, s.Inv → t.Inv → (∀ it : Item, it.same s t) → s = t

/-- The complete list of what reaches `V[0xF]` (R12): the flag-writing instructions leave the flag there, 0 or 1; no other
instruction writes it unless it names it as its destination. -/
def Obligations.FlagRegisterIsWrittenOnlyAsListed : Prop :=
  State.reset.getV flagReg = 0 ∧
  ∀ (i : Instr) (s t : State), i.wellFormed = true → exec i s = .next t →
    match i with
    | .addReg x y => t.getV flagReg = if 255 < (s.getV x).toNat + (s.getV y).toNat then 1 else 0
    | .subReg x y => t.getV flagReg = if (s.getV y).toNat ≤ (s.getV x).toNat then 1 else 0
    | .subnReg x y => t.getV flagReg = if (s.getV x).toNat ≤ (s.getV y).toNat then 1 else 0
    | .shrReg x y => (t.getV flagReg).toNat = (if s.cfg.shiftUsesVY then s.getV y else s.getV x).toNat % 2
    | .shlReg x y => (t.getV flagReg).toNat = (if s.cfg.shiftUsesVY then s.getV y else s.getV x).toNat / 128
    | .drw _ _ _ =>
      (t.getV flagReg = 1 ∧ ∃ px py, s.disp.pixel px py = true ∧ t.disp.pixel px py = false) ∨
      (t.getV flagReg = 0 ∧ ¬ ∃ px py, s.disp.pixel px py = true ∧ t.disp.pixel px py = false)
    | .addI x =>
      if s.cfg.fx1eSetsVF then t.getV flagReg = (if 0xFFF < s.i.toNat + (s.getV x).toNat then 1 else 0)
      else t.getV flagReg = s.getV flagReg
    | .ldImm x _ | .addImm x _ | .ldReg x _ | .orReg x _ | .andReg x _ | .xorReg x _ | .rnd x _ | .ldVxDT x | .ldVxK x
    | .loadRegs x => x ≠ flagReg → t.getV flagReg = s.getV flagReg
    | _ => t.getV flagReg = s.getV flagReg

/-- The delay timer (R17): `FX15` writes it, `FX07` reads it, `Tick` takes one off while it is positive, and no `Step`
changes it except an `FX15`. Over all the host's events: what changes it is a `Step` that ran an `FX15`, a `Tick` of a running
machine, or a `Reset`, which sets it to 0; `SetKeys` and `Load` never do. That the reset value is 0 is the spec's decision D18
(log entry 3), `FX07` its D28 (log entry 14), and a halted machine's `Tick` its D20 (log entry 8). -/
def Obligations.DelayTimerIsChangedOnlyByItsInstructionTickAndReset : Prop :=
  (∀ (s : State) (x : Reg), ∃ t, exec (.ldDTVx x) s = .next t ∧ t.dt = s.getV x) ∧
  (∀ (s : State) (x : Reg), ∃ t, exec (.ldVxDT x) s = .next t ∧ t.getV x = s.dt) ∧
  (∀ s : State, s.err = none → ∃ t, hostEvent .tick s = .next t ∧ t.dt.toNat = s.dt.toNat - 1) ∧
  (∀ s : State, ∃ t, hostEvent .reset s = .next t ∧ t.dt = 0) ∧
  (∀ (e : HostEvent) (s t : State), hostEvent e s = .next t → t.dt ≠ s.dt →
    (e = .step ∧ s.err = none ∧ ∃ x, decode s.fetchWord = .ok (.ldDTVx x)) ∨
    (e = .tick ∧ s.err = none) ∨ e = .reset)

/-- A one-byte write changes the byte at its address, reduced mod 4096, and nothing else; a read after it returns the byte
(R33). -/
def Obligations.MemWriteChangesOneByte : Prop :=
  ∀ (s : State) (addr : Nat) (b : Byte),
    (s.memWrite addr b).memRead (addr % 4096) = b ∧
    ChangesOnly (fun it => ∃ a : Addr, it = .mem a ∧ a.toNat = addr % 4096) s (s.memWrite addr b)

/-- A store is seen by the very next fetch (R43): where `FX55` (R105) or `FX33` (R104) stored a byte at the new `PC`, the word
fetched next holds it in its high half, and where at `PC + 1`, in its low half. That holds of every register `FX55` stores and
of each of the three digits `FX33` stores, hundreds, tens and ones in that order (the spec's decision D14, log entry 14). -/
def Obligations.NextFetchSeesTheStore : Prop :=
  (∀ (s t : State) (x r : Reg), exec (.storeRegs x) s = .next t → r ≤ x →
    (s.ea r.val = t.pc.toNat → t.fetchWord.toNat / 256 = (s.getV r).toNat) ∧
    (s.ea r.val = (t.pc.toNat + 1) % 4096 → t.fetchWord.toNat % 256 = (s.getV r).toNat)) ∧
  (∀ (s t : State) (x : Reg) (k digit : Nat), exec (.ldB x) s = .next t →
    (k = 0 ∧ digit = (s.getV x).toNat / 100) ∨ (k = 1 ∧ digit = (s.getV x).toNat / 10 % 10) ∨
      (k = 2 ∧ digit = (s.getV x).toNat % 10) →
    (s.ea k = t.pc.toNat → t.fetchWord.toNat / 256 = digit) ∧
    (s.ea k = (t.pc.toNat + 1) % 4096 → t.fetchWord.toNat % 256 = digit))

/-- The states that a running machine's `Step` does not change: a `1NNN` to itself, a `BNNN` to itself, and an `FX0A` with
no key down. R163 (c) names the first and the last only; R73 gives the other (log entry 16). -/
def Obligations.StuckStatesAreSelfJumpsAndKeyWaits : Prop :=
  ∀ s : State, s.err = none →
    (stepEvent s = .next s ↔
      decode s.fetchWord = .ok (.jp s.pc) ∨
      (∃ nnn, decode s.fetchWord = .ok (.jpV0 nnn) ∧ (nnn.toNat + (s.getV 0).toNat) % 4096 = s.pc.toNat) ∨
      ((∃ x, decode s.fetchWord = .ok (.ldVxK x)) ∧ ∀ k, s.keyDown k = false))

/-! ### The host's events -/

/-- `Tick` (R142): each timer one less while positive, tested by itself, nothing else; nothing at all while halted. -/
def Obligations.TickDecrementsBothTimers : Prop :=
  ∀ s : State, ∃ t, hostEvent .tick s = .next t ∧
    (s.err ≠ none → t = s) ∧
    (s.err = none →
      (t.dt.toNat = if 0 < s.dt.toNat then s.dt.toNat - 1 else 0) ∧
      (t.st.toNat = if 0 < s.st.toNat then s.st.toNat - 1 else 0) ∧
      ChangesOnly (among [.dt, .st]) s t)

/-- After `n` ticks of a running machine each timer holds `max(0, v - n)` (R143). -/
def Obligations.TimersAfterManyTicks : Prop :=
  ∀ (n : Nat) (s : State), s.err = none →
    (State.tick^[n] s).dt.toNat = s.dt.toNat - n ∧ (State.tick^[n] s).st.toNat = s.st.toNat - n ∧
    ChangesOnly (among [.dt, .st]) s (State.tick^[n] s)

/-- `SetKeys` (R156) writes all sixteen latches at once, in any state, and nothing else; no instruction and no `Tick` changes
a latch. Over all the host's events a latch changes only by `SetKeys`, or by `Reset`, which puts every item at its reset value
(R150): the latches hold through every `Step`, `Tick` and `Load`. -/
def Obligations.OnlySetKeysAndResetWriteTheLatches : Prop :=
  (∀ (s : State) (k : Keypad), ∃ t, hostEvent (.setKeys k) s = .next t ∧ (∀ j : Fin 16, t.keyDown j = k[j]) ∧
    ChangesOnly wholeKeypad s t) ∧
  (∀ (i : Instr) (s t : State) (j : Fin 16), exec i s = .next t → t.keyDown j = s.keyDown j) ∧
  (∀ (s : State) (j : Fin 16), s.tick.keyDown j = s.keyDown j) ∧
  (∀ (e : HostEvent) (s t : State) (j : Fin 16), hostEvent e s = .next t → t.keyDown j ≠ s.keyDown j →
    (∃ k, e = .setKeys k) ∨ e = .reset)

/-- `Load` (R152): a program of at most 3584 bytes is copied to `0x200`, and nothing else changes; a longer one is rejected
with its length and writes nothing (all or nothing is the spec's decision D29). -/
def Obligations.LoadCopiesTheProgramOrNothing : Prop :=
  ∀ (s : State) (bytes : List Byte),
    (bytes.length ≤ 3584 → loadReport bytes = .ok ∧ ∃ t, hostEvent (.load bytes) s = .next t ∧
      (∀ k (hk : k < bytes.length), t.memRead (0x200 + k) = bytes[k]) ∧
      ChangesOnly (fun it => ∃ k a, k < bytes.length ∧ it = .mem a ∧ a.toNat = 0x200 + k) s t) ∧
    (3584 < bytes.length → loadReport bytes = .romTooLarge bytes.length ∧ hostEvent (.load bytes) s = .next s)

/-- The key wait holds (R27): while an `FX0A` waits, a `Step` changes nothing, and a `Tick` leaves the wait as it is; after
`SetKeys` with a key down the next `Step` completes the same instruction, with that key when it is the only one. -/
def Obligations.KeyWaitEndsWithTheKey : Prop :=
  ∀ (s : State) (x : Reg), s.err = none → decode s.fetchWord = .ok (.ldVxK x) → (∀ k, s.keyDown k = false) →
    stepEvent s = .next s ∧ stepReport s = .waitingKey ∧
    (s.tick.err = none ∧ decode s.tick.fetchWord = .ok (.ldVxK x) ∧ ∀ k, s.tick.keyDown k = false) ∧
    (∀ (keys : Keypad) (j : Fin 16), (∀ k : Fin 16, keys[k] = decide (k = j)) →
      ∃ t, stepEvent (s.setKeys keys) = .next t ∧ (t.getV x).toNat = j.val ∧ t.pc.toNat = (s.pc.toNat + 2) % 4096)

/-! ### Control transfer -/

/-- `00EE` RET (R66): with the stack empty it raises `StackUnderflow`; else `PC` gets the top entry, `SP` is one less, and
nothing else changes, the popped slot included. -/
def Obligations.ReturnPopsTheTopEntry : Prop :=
  decode 0x00EE = .ok .ret ∧
  ∀ s : State,
    (s.sp = 0 → ∃ t, exec .ret s = .next t ∧ t.err = some .stackUnderflow ∧ ChangesOnly (among [.err]) s t) ∧
    (s.sp ≠ 0 → ∃ t, exec .ret s = .next t ∧ t.sp + 1 = s.sp ∧ t.pc = s.stkAt t.sp ∧
      ChangesOnly (among [.pc, .sp]) s t)

/-- `1NNN` JP nnn (R67): `PC` gets `nnn`, and nothing else changes. -/
def Obligations.JumpGoesToItsAddress : Prop :=
  ∀ (s : State) (nnn : Addr),
    decode (BitVec.ofNat 16 (0x1000 + nnn.toNat)) = .ok (.jp nnn) ∧
    ∃ t, exec (.jp nnn) s = .next t ∧ t.pc = nnn ∧ ChangesOnly (among [.pc]) s t

/-- `2NNN` CALL nnn (R68): with the stack full it raises `StackOverflow`; else `STK[SP]` gets `next`, `SP` is one more, `PC`
gets `nnn`, and nothing else changes. The premise on `STK`'s length is the invariant's. -/
def Obligations.CallPushesTheReturnAddress : Prop :=
  ∀ (s : State) (nnn : Addr),
    decode (BitVec.ofNat 16 (0x2000 + nnn.toNat)) = .ok (.call nnn) ∧
    (s.sp = s.cfg.stackDepth →
      ∃ t, exec (.call nnn) s = .next t ∧ t.err = some .stackOverflow ∧ ChangesOnly (among [.err]) s t) ∧
    (s.sp < s.cfg.stackDepth → s.stk.length = s.cfg.stackDepth →
      ∃ t, exec (.call nnn) s = .next t ∧ (t.stkAt s.sp).toNat = (s.pc.toNat + 2) % 4096 ∧ t.sp = s.sp + 1 ∧
        t.pc = nnn ∧ ChangesOnly (among [.pc, .sp, .stk s.sp]) s t)

/-- A call and the return that is executed next come back to the instruction after the call, the stack level as it was (R74);
only the dead entry has changed. -/
def Obligations.CallThenReturnComesBack : Prop :=
  ∀ (s : State) (nnn : Addr), s.err = none → s.sp < s.cfg.stackDepth → s.stk.length = s.cfg.stackDepth →
    decode s.fetchWord = .ok (.call nnn) → decode (s.memRead16 nnn.toNat) = .ok .ret →
    ∃ t u, stepEvent s = .next t ∧ t.pc = nnn ∧ t.sp = s.sp + 1 ∧ stepEvent t = .next u ∧
      u.pc.toNat = (s.pc.toNat + 2) % 4096 ∧ u.sp = s.sp ∧ (u.stkAt s.sp).toNat = (s.pc.toNat + 2) % 4096 ∧
      ChangesOnly (among [.pc, .stk s.sp]) s u

/-- `3XNN` SE and `4XNN` SNE (R69, R70): skip on equal, or on different; only `PC` changes. -/
def Obligations.SkipsOnImmediateCompareAllEightBits : Prop :=
  ∀ (s : State) (x : Reg) (nn : Byte),
    decode (BitVec.ofNat 16 (0x3000 + 256 * x.val + nn.toNat)) = .ok (.seImm x nn) ∧
    decode (BitVec.ofNat 16 (0x4000 + 256 * x.val + nn.toNat)) = .ok (.sneImm x nn) ∧
    (∃ t, exec (.seImm x nn) s = .next t ∧
      (t.pc.toNat = (s.pc.toNat + if (s.getV x).toNat = nn.toNat then 4 else 2) % 4096) ∧ ChangesOnly (among [.pc]) s t) ∧
    (∃ t, exec (.sneImm x nn) s = .next t ∧
      (t.pc.toNat = (s.pc.toNat + if (s.getV x).toNat = nn.toNat then 2 else 4) % 4096) ∧ ChangesOnly (among [.pc]) s t)

/-- `5XY0` SE and `9XY0` SNE (R71, R72): skip on equal, or on different, registers; a register always equals itself; only
`PC` changes. Every other low nibble is Illegal (for `9XYN` the spec's decision D7). -/
def Obligations.SkipsOnRegistersCompareAllEightBits : Prop :=
  ∀ (s : State) (x y : Reg),
    (∀ n < 16, decode (BitVec.ofNat 16 (0x5000 + 256 * x.val + 16 * y.val + n)) =
      if n = 0 then .ok (.seReg x y) else .error .major5) ∧
    (∀ n < 16, decode (BitVec.ofNat 16 (0x9000 + 256 * x.val + 16 * y.val + n)) =
      if n = 0 then .ok (.sneReg x y) else .error .major9) ∧
    (∃ t, exec (.seReg x y) s = .next t ∧
      (t.pc.toNat = (s.pc.toNat + if (s.getV x).toNat = (s.getV y).toNat then 4 else 2) % 4096) ∧
      ChangesOnly (among [.pc]) s t) ∧
    (∃ t, exec (.sneReg x y) s = .next t ∧
      (t.pc.toNat = (s.pc.toNat + if (s.getV x).toNat = (s.getV y).toNat then 2 else 4) % 4096) ∧
      ChangesOnly (among [.pc]) s t)

/-- `BNNN` JP V0, nnn (R73; the wrap is the spec's decision D9): `PC` gets `(nnn + V[0]) mod 4096`, always of `V[0]`, and
nothing else changes. -/
def Obligations.JumpWithOffsetAddsV0 : Prop :=
  ∀ (s : State) (nnn : Addr),
    decode (BitVec.ofNat 16 (0xB000 + nnn.toNat)) = .ok (.jpV0 nnn) ∧
    ∃ t, exec (.jpV0 nnn) s = .next t ∧ t.pc.toNat = (nnn.toNat + (s.getV 0).toNat) % 4096 ∧
      ChangesOnly (among [.pc]) s t

/-! ### Register loads, ALU, random -/

/-- `6XNN` LD, `7XNN` ADD and `8XY0` LD (R82, R83, R84): the immediate, the wrapped sum, the copy; `V[0xF]` changes only as
the destination, and nothing else but `PC`. -/
def Obligations.LoadsAndImmediateAddWriteOnlyTheirRegister : Prop :=
  ∀ (s : State) (x y : Reg) (nn : Byte),
    decode (BitVec.ofNat 16 (0x6000 + 256 * x.val + nn.toNat)) = .ok (.ldImm x nn) ∧
    decode (BitVec.ofNat 16 (0x7000 + 256 * x.val + nn.toNat)) = .ok (.addImm x nn) ∧
    decode (BitVec.ofNat 16 (0x8000 + 256 * x.val + 16 * y.val)) = .ok (.ldReg x y) ∧
    (∃ t, exec (.ldImm x nn) s = .next t ∧ t.getV x = nn ∧ t.pc.toNat = (s.pc.toNat + 2) % 4096 ∧ ChangesRegs [x] s t) ∧
    (∃ t, exec (.addImm x nn) s = .next t ∧ (t.getV x).toNat = ((s.getV x).toNat + nn.toNat) % 256 ∧
      t.pc.toNat = (s.pc.toNat + 2) % 4096 ∧ ChangesRegs [x] s t) ∧
    (∃ t, exec (.ldReg x y) s = .next t ∧ t.getV x = s.getV y ∧ t.pc.toNat = (s.pc.toNat + 2) % 4096 ∧
      ChangesRegs [x] s t)

/-- `8XY1` OR, `8XY2` AND, `8XY3` XOR (R85, R86, R87), bit by bit; `V[0xF]` changes only as the destination (the spec's
decision D26). -/
def Obligations.LogicOperationsAreBitwiseAndLeaveTheFlag : Prop :=
  ∀ (s : State) (x y : Reg),
    decode (BitVec.ofNat 16 (0x8001 + 256 * x.val + 16 * y.val)) = .ok (.orReg x y) ∧
    decode (BitVec.ofNat 16 (0x8002 + 256 * x.val + 16 * y.val)) = .ok (.andReg x y) ∧
    decode (BitVec.ofNat 16 (0x8003 + 256 * x.val + 16 * y.val)) = .ok (.xorReg x y) ∧
    (∃ t, exec (.orReg x y) s = .next t ∧
      (∀ k < 8, (t.getV x).getLsbD k = ((s.getV x).getLsbD k || (s.getV y).getLsbD k)) ∧
      t.pc.toNat = (s.pc.toNat + 2) % 4096 ∧ ChangesRegs [x] s t) ∧
    (∃ t, exec (.andReg x y) s = .next t ∧
      (∀ k < 8, (t.getV x).getLsbD k = ((s.getV x).getLsbD k && (s.getV y).getLsbD k)) ∧
      t.pc.toNat = (s.pc.toNat + 2) % 4096 ∧ ChangesRegs [x] s t) ∧
    (∃ t, exec (.xorReg x y) s = .next t ∧
      (∀ k < 8, (t.getV x).getLsbD k = ((s.getV x).getLsbD k ^^ (s.getV y).getLsbD k)) ∧
      t.pc.toNat = (s.pc.toNat + 2) % 4096 ∧ ChangesRegs [x] s t)

/-- `8XY4` ADD (R88): the sum of the old values mod 256 to `V[x]`, the carry to `V[0xF]`, which keeps it also when
`x = 0xF`. -/
def Obligations.AddWritesSumThenCarry : Prop :=
  ∀ (s : State) (x y : Reg),
    decode (BitVec.ofNat 16 (0x8004 + 256 * x.val + 16 * y.val)) = .ok (.addReg x y) ∧
    ∃ t, exec (.addReg x y) s = .next t ∧
      (x ≠ flagReg → (t.getV x).toNat = ((s.getV x).toNat + (s.getV y).toNat) % 256) ∧
      ((t.getV flagReg).toNat = if 255 < (s.getV x).toNat + (s.getV y).toNat then 1 else 0) ∧
      t.pc.toNat = (s.pc.toNat + 2) % 4096 ∧ ChangesRegs [x, flagReg] s t

/-- `8XY5` SUB (R89): `p - q` mod 256 of the old values to `V[x]`, then 1 to `V[0xF]` when `p ≥ q`, else 0, also when
`x = 0xF`. -/
def Obligations.SubWritesDifferenceThenNotBorrow : Prop :=
  ∀ (s : State) (x y : Reg),
    decode (BitVec.ofNat 16 (0x8005 + 256 * x.val + 16 * y.val)) = .ok (.subReg x y) ∧
    ∃ t, exec (.subReg x y) s = .next t ∧
      (x ≠ flagReg → (t.getV x).toNat = ((s.getV x).toNat + 256 - (s.getV y).toNat) % 256) ∧
      ((t.getV flagReg).toNat = if (s.getV y).toNat ≤ (s.getV x).toNat then 1 else 0) ∧
      t.pc.toNat = (s.pc.toNat + 2) % 4096 ∧ ChangesRegs [x, flagReg] s t

/-- `8XY7` SUBN (R91, the spec's decision D6; log entry 15): as SUB with the operands exchanged. -/
def Obligations.SubnWritesReverseDifferenceThenNotBorrow : Prop :=
  ∀ (s : State) (x y : Reg),
    decode (BitVec.ofNat 16 (0x8007 + 256 * x.val + 16 * y.val)) = .ok (.subnReg x y) ∧
    ∃ t, exec (.subnReg x y) s = .next t ∧
      (x ≠ flagReg → (t.getV x).toNat = ((s.getV y).toNat + 256 - (s.getV x).toNat) % 256) ∧
      ((t.getV flagReg).toNat = if (s.getV x).toNat ≤ (s.getV y).toNat then 1 else 0) ∧
      t.pc.toNat = (s.pc.toNat + 2) % 4096 ∧ ChangesRegs [x, flagReg] s t

/-- `8XY6` SHR and `8XYE` SHL (R90, R92), at both settings of `SHIFT_USES_VY` (D4): the source shifted by one to `V[x]`, then
the bit shifted out to `V[0xF]`; `V[y]` is not written. -/
def Obligations.ShiftsWriteResultThenTheBitShiftedOut : Prop :=
  ∀ (s : State) (x y : Reg) (src : Nat), src = (if s.cfg.shiftUsesVY then s.getV y else s.getV x).toNat →
    decode (BitVec.ofNat 16 (0x8006 + 256 * x.val + 16 * y.val)) = .ok (.shrReg x y) ∧
    decode (BitVec.ofNat 16 (0x800E + 256 * x.val + 16 * y.val)) = .ok (.shlReg x y) ∧
    (∃ t, exec (.shrReg x y) s = .next t ∧
      (x ≠ flagReg → (t.getV x).toNat = src / 2) ∧ (t.getV flagReg).toNat = src % 2 ∧
      t.pc.toNat = (s.pc.toNat + 2) % 4096 ∧ ChangesRegs [x, flagReg] s t) ∧
    (∃ t, exec (.shlReg x y) s = .next t ∧
      (x ≠ flagReg → (t.getV x).toNat = src * 2 % 256) ∧ (t.getV flagReg).toNat = src / 128 ∧
      t.pc.toNat = (s.pc.toNat + 2) % 4096 ∧ ChangesRegs [x, flagReg] s t)

/-- `CXNN` RND (R93, the spec's decision D23): `V[x]` gets the random byte of this draw, a free value, ANDed with `nn`, so that
every bit that is 0 in `nn` is 0; the next draw is another (log entry 5). -/
def Obligations.RandomIsMaskedByTheImmediate : Prop :=
  ∀ (s : State) (x : Reg) (nn : Byte),
    decode (BitVec.ofNat 16 (0xC000 + 256 * x.val + nn.toNat)) = .ok (.rnd x nn) ∧
    ∃ t, exec (.rnd x nn) s = .next t ∧
      (∀ k < 8, (t.getV x).getLsbD k = ((Config.randomByte s.draws).getLsbD k && nn.getLsbD k)) ∧
      t.draws = s.draws + 1 ∧ t.pc.toNat = (s.pc.toNat + 2) % 4096 ∧
      ChangesOnly (among [.pc, .v x, .draws]) s t

/-! ### Index register and memory -/

/-- `ANNN` LD I, nnn (R101). -/
def Obligations.LoadIndexSetsTheIndex : Prop :=
  ∀ (s : State) (nnn : Addr),
    decode (BitVec.ofNat 16 (0xA000 + nnn.toNat)) = .ok (.ldI nnn) ∧
    ∃ t, exec (.ldI nnn) s = .next t ∧ t.i = nnn ∧ t.pc.toNat = (s.pc.toNat + 2) % 4096 ∧
      ChangesOnly (among [.pc, .i]) s t

/-- `FX1E` ADD I, Vx (R102), at both settings of `FX1E_SETS_VF` (D5): the index wraps mod 4096 (D9); the overflow goes to
`V[0xF]` only when the parameter is set, after the old `V[x]` is read. -/
def Obligations.AddIndexWrapsAndFlagsOnlyByParameter : Prop :=
  ∀ (s : State) (x : Reg),
    decode (BitVec.ofNat 16 (0xF01E + 256 * x.val)) = .ok (.addI x) ∧
    ∃ t, exec (.addI x) s = .next t ∧
      t.i.toNat = (s.i.toNat + (s.getV x).toNat) % 4096 ∧
      (s.cfg.fx1eSetsVF = true →
        ((t.getV flagReg).toNat = if 0xFFF < s.i.toNat + (s.getV x).toNat then 1 else 0) ∧
        ChangesOnly (among [.pc, .i, .v flagReg]) s t) ∧
      (s.cfg.fx1eSetsVF = false → ChangesOnly (among [.pc, .i]) s t) ∧
      t.pc.toNat = (s.pc.toNat + 2) % 4096

/-- `FX29` LD F, Vx (R103; the low nibble is the spec's decision D11): `I` gets `FONT_BASE + 5 * d`, which is below `0x200`;
no memory is read or written. -/
def Obligations.LoadFontPointsAtTheGlyph : Prop :=
  ∀ (s : State) (x : Reg), s.cfg.wf →
    decode (BitVec.ofNat 16 (0xF029 + 256 * x.val)) = .ok (.ldF x) ∧
    ∃ t, exec (.ldF x) s = .next t ∧
      t.i.toNat = s.cfg.fontBase.toNat + 5 * ((s.getV x).toNat % 16) ∧ t.i.toNat < 0x200 ∧
      t.pc.toNat = (s.pc.toNat + 2) % 4096 ∧ ChangesOnly (among [.pc, .i]) s t

/-- `FX33` LD B, Vx (R104; the digit order is the spec's decision D14): hundreds, tens and ones at `EA(0)`, `EA(1)`, `EA(2)`,
`EA(k) = (I + k) mod 4096`; every other byte, `I` and everything else as before. -/
def Obligations.BcdStoresThreeDigits : Prop :=
  ∀ (s : State) (x : Reg),
    decode (BitVec.ofNat 16 (0xF033 + 256 * x.val)) = .ok (.ldB x) ∧
    ∃ t, exec (.ldB x) s = .next t ∧
      (t.memRead ((s.i.toNat + 0) % 4096)).toNat = (s.getV x).toNat / 100 ∧
      (t.memRead ((s.i.toNat + 1) % 4096)).toNat = (s.getV x).toNat / 10 % 10 ∧
      (t.memRead ((s.i.toNat + 2) % 4096)).toNat = (s.getV x).toNat % 10 ∧
      t.pc.toNat = (s.pc.toNat + 2) % 4096 ∧
      ChangesOnly (fun it => it = .pc ∨ bytesAtIndex s 3 it) s t

/-- `FX55` LD [I], Vx (R105; `I` unchanged is the spec's decision D13): `V[r]` at `EA(r)` for every `r ≤ x`, inclusive, the
addresses wrapping one by one; every other byte, `I` and everything else as before. -/
def Obligations.RegisterDumpStoresEachRegister : Prop :=
  ∀ (s : State) (x : Reg),
    decode (BitVec.ofNat 16 (0xF055 + 256 * x.val)) = .ok (.storeRegs x) ∧
    ∃ t, exec (.storeRegs x) s = .next t ∧
      (∀ r : Reg, r ≤ x → t.memRead ((s.i.toNat + r.val) % 4096) = s.getV r) ∧
      t.pc.toNat = (s.pc.toNat + 2) % 4096 ∧
      ChangesOnly (fun it => it = .pc ∨ bytesAtIndex s (x.val + 1) it) s t

/-- `FX65` LD Vx, [I] (R106; `I` unchanged is the spec's decision D13): the byte at `EA(r)` to `V[r]` for every `r ≤ x`,
inclusive; the registers above, memory, `I` and everything else as before. -/
def Obligations.RegisterLoadReadsEachRegister : Prop :=
  ∀ (s : State) (x : Reg),
    decode (BitVec.ofNat 16 (0xF065 + 256 * x.val)) = .ok (.loadRegs x) ∧
    ∃ t, exec (.loadRegs x) s = .next t ∧
      (∀ r : Reg, r ≤ x → t.getV r = s.memRead ((s.i.toNat + r.val) % 4096)) ∧
      t.pc.toNat = (s.pc.toNat + 2) % 4096 ∧
      ChangesOnly (fun it => it = .pc ∨ regsTo x it) s t

/-! ### Display -/

/-- `00E0` CLS (R111): every cell dark; `V[0xF]` and everything else but `PC` as before. -/
def Obligations.ClearDarkensEveryCell : Prop :=
  decode 0x00E0 = .ok .cls ∧
  ∀ s : State, ∃ t, exec .cls s = .next t ∧ (∀ px py, t.disp.pixel px py = false) ∧
    t.pc.toNat = (s.pc.toNat + 2) % 4096 ∧ ChangesOnly (fun it => it = .pc ∨ wholeDisplay it) s t

/-- `DXYN` DRW (R112; the sprite layout is the spec's decision D15): a cell is inverted exactly when the sprite, placed at
(`V[x]` mod 64, `V[y]` mod 32) and wrapping, has a 1 bit over it; `V[0xF]` ends as 1 when some covered cell was lit, else 0,
also for `n = 0` and when `x` or `y` is `0xF`; nothing else changes. -/
def Obligations.DrawInvertsExactlyTheCoveredCells : Prop :=
  ∀ (s : State) (x y : Reg) (n : Nat), n ≤ 15 →
    decode (BitVec.ofNat 16 (0xD000 + 256 * x.val + 16 * y.val + n)) = .ok (.drw x y n) ∧
    ∃ t, exec (.drw x y n) s = .next t ∧
      (∀ px py, (t.disp.pixel px py = s.disp.pixel px py) ↔
        ¬ spriteCovers s ((s.getV x).toNat % 64) ((s.getV y).toNat % 32) n px py) ∧
      ((t.getV flagReg = 1 ∧ ∃ px py, s.disp.pixel px py = true ∧
          spriteCovers s ((s.getV x).toNat % 64) ((s.getV y).toNat % 32) n px py) ∨
        (t.getV flagReg = 0 ∧ ¬ ∃ px py, s.disp.pixel px py = true ∧
          spriteCovers s ((s.getV x).toNat % 64) ((s.getV y).toNat % 32) n px py)) ∧
      t.pc.toNat = (s.pc.toNat + 2) % 4096 ∧
      ChangesOnly (fun it => it = .pc ∨ it = .v flagReg ∨ wholeDisplay it) s t

/-- Sprite XOR idempotence (R113): of two draws of the same sprite at the same coordinates one after the other (the premise
is about the coordinates: the first draw writes `V[0xF]`, which `x` or `y` may name), the second restores the display, and it
reports a collision exactly when some cell under a 1 bit was dark before the first. -/
def Obligations.DrawingTwiceRestoresTheDisplay : Prop :=
  ∀ (s t u : State) (x y : Reg) (n : Nat), n ≤ 15 →
    exec (.drw x y n) s = .next t → exec (.drw x y n) t = .next u →
    (t.getV x).toNat % 64 = (s.getV x).toNat % 64 → (t.getV y).toNat % 32 = (s.getV y).toNat % 32 →
    u.disp = s.disp ∧
    (u.getV flagReg = 1 ↔ ∃ px py, s.disp.pixel px py = false ∧
      spriteCovers s ((s.getV x).toNat % 64) ((s.getV y).toNat % 32) n px py)

/-! ### Keypad and timers -/

/-- `EX9E` SKP and `EXA1` SKNP (R121, R122): skip when the key numbered by the low nibble of `V[x]` (the spec's decision D11)
is down, or is not; the latch is not cleared, and only `PC` changes. -/
def Obligations.KeySkipsTestOneLatch : Prop :=
  ∀ (s : State) (x : Reg) (k : Fin 16), k.val = (s.getV x).toNat % 16 →
    decode (BitVec.ofNat 16 (0xE09E + 256 * x.val)) = .ok (.skp x) ∧
    decode (BitVec.ofNat 16 (0xE0A1 + 256 * x.val)) = .ok (.sknp x) ∧
    (∃ t, exec (.skp x) s = .next t ∧
      (t.pc.toNat = (s.pc.toNat + if s.keyDown k = true then 4 else 2) % 4096) ∧ ChangesOnly (among [.pc]) s t) ∧
    (∃ t, exec (.sknp x) s = .next t ∧
      (t.pc.toNat = (s.pc.toNat + if s.keyDown k = true then 2 else 4) % 4096) ∧ ChangesOnly (among [.pc]) s t)

/-- `FX15` LD DT, Vx (R124): any value, lower or higher than the old one. -/
def Obligations.SetDelayTimerCopiesTheRegister : Prop :=
  ∀ (s : State) (x : Reg),
    decode (BitVec.ofNat 16 (0xF015 + 256 * x.val)) = .ok (.ldDTVx x) ∧
    ∃ t, exec (.ldDTVx x) s = .next t ∧ t.dt = s.getV x ∧ t.pc.toNat = (s.pc.toNat + 2) % 4096 ∧
      ChangesOnly (among [.pc, .dt]) s t

/-- `FX07` LD Vx, DT and `FX18` LD ST, Vx (R123, R125; which of the three opcodes does what is the spec's decision D28). -/
def Obligations.ReadDelayTimerAndSetSoundTimer : Prop :=
  ∀ (s : State) (x : Reg),
    decode (BitVec.ofNat 16 (0xF007 + 256 * x.val)) = .ok (.ldVxDT x) ∧
    decode (BitVec.ofNat 16 (0xF018 + 256 * x.val)) = .ok (.ldSTVx x) ∧
    (∃ t, exec (.ldVxDT x) s = .next t ∧ t.getV x = s.dt ∧ t.pc.toNat = (s.pc.toNat + 2) % 4096 ∧ ChangesRegs [x] s t) ∧
    (∃ t, exec (.ldSTVx x) s = .next t ∧ t.st = s.getV x ∧ t.pc.toNat = (s.pc.toNat + 2) % 4096 ∧
      ChangesOnly (among [.pc, .st]) s t)

/-- `FX0A` LD Vx, K (R126; level, lowest key and no release are the spec's decision D12): with no key down nothing changes;
else `V[x]` gets the least key that is down, `PC` gets `next`, and the latches stay. -/
def Obligations.WaitForKeyDeliversTheLeastKeyDown : Prop :=
  ∀ (s : State) (x : Reg),
    decode (BitVec.ofNat 16 (0xF00A + 256 * x.val)) = .ok (.ldVxK x) ∧
    ((∀ k, s.keyDown k = false) → exec (.ldVxK x) s = .next s) ∧
    (∀ k, s.keyDown k = true → (∀ j, j < k → s.keyDown j = false) →
      ∃ t, exec (.ldVxK x) s = .next t ∧ (t.getV x).toNat = k.val ∧ t.pc.toNat = (s.pc.toNat + 2) % 4096 ∧
        ChangesRegs [x] s t)
end

