-- ==== Sys2Proof/Laws/Encoding.lean ====
section
/-! SUPPORT. The fields of an instruction word as arithmetic, the fields of a word that was built from them, and the word
that its fields build again: what the round trips between decoder and encoder rest on. -/

namespace Sys2Proof

/-! ### Words and fields as numbers -/

theorem toNat_wordA (m : Nibble) (nnn : Addr) : (wordA m nnn).toNat = m.toNat * 4096 + nnn.toNat := by
  simp only [wordA, BitVec.toNat_append]
  rw [← Nat.shiftLeft_add_eq_or_of_lt nnn.isLt, Nat.shiftLeft_eq]

theorem toNat_wordI (m : Nibble) (x : Reg) (nn : Byte) :
    (wordI m x nn).toNat = m.toNat * 4096 + x.val * 256 + nn.toNat := by
  simp only [wordI, BitVec.toNat_append, regNibble]
  rw [← Nat.shiftLeft_add_eq_or_of_lt nn.isLt, ← Nat.shiftLeft_add_eq_or_of_lt]
  · simp [Nat.shiftLeft_eq]; omega
  · have := nn.isLt; have := x.isLt; simp [Nat.shiftLeft_eq]; omega

theorem toNat_wordR (m : Nibble) (x y : Reg) (n : Nibble) :
    (wordR m x y n).toNat = m.toNat * 4096 + x.val * 256 + y.val * 16 + n.toNat := by
  have hb : (regNibble y ++ n : Byte).toNat = y.val * 16 + n.toNat := by
    rw [BitVec.toNat_append, ← Nat.shiftLeft_add_eq_or_of_lt n.isLt, Nat.shiftLeft_eq]
    rfl
  have := toNat_wordI m x (regNibble y ++ n : Byte)
  rw [hb] at this
  exact this.trans (by omega)

/-! The number a word is, as R58's `match` plus its operands in place. -/

theorem ofNat_eq_wordA (m : Nibble) (nnn : Addr) (w : Nat) (h : w = m.toNat * 4096 + nnn.toNat) :
    BitVec.ofNat 16 w = wordA m nnn :=
  BitVec.eq_of_toNat_eq (by
    rw [toNat_wordA, h, BitVec.toNat_ofNat]; have := m.isLt; have := nnn.isLt; omega)

theorem ofNat_eq_wordI (m : Nibble) (x : Reg) (nn : Byte) (w : Nat) (h : w = m.toNat * 4096 + x.val * 256 + nn.toNat) :
    BitVec.ofNat 16 w = wordI m x nn :=
  BitVec.eq_of_toNat_eq (by
    rw [toNat_wordI, h, BitVec.toNat_ofNat]; have := m.isLt; have := nn.isLt; have := x.isLt; omega)

theorem ofNat_eq_wordR (m : Nibble) (x y : Reg) (n : Nibble) (w : Nat)
    (h : w = m.toNat * 4096 + x.val * 256 + y.val * 16 + n.toNat) : BitVec.ofNat 16 w = wordR m x y n :=
  BitVec.eq_of_toNat_eq (by
    rw [toNat_wordR, h, BitVec.toNat_ofNat]
    have := m.isLt; have := n.isLt; have := x.isLt; have := y.isLt; omega)

theorem toNat_fieldMajor (op : OpWord) : (fieldMajor op).toNat = op.toNat / 4096 := by
  have := op.isLt
  simp [fieldMajor, Nat.shiftRight_eq_div_pow]; omega

theorem val_fieldX (op : OpWord) : (fieldX op).val = op.toNat / 256 % 16 := by
  simp [fieldX, Nat.shiftRight_eq_div_pow]

theorem val_fieldY (op : OpWord) : (fieldY op).val = op.toNat / 16 % 16 := by
  simp [fieldY, Nat.shiftRight_eq_div_pow]

theorem toNat_fieldN (op : OpWord) : (fieldN op).toNat = op.toNat % 16 := by simp [fieldN]

theorem toNat_fieldNN (op : OpWord) : (fieldNN op).toNat = op.toNat % 256 := by simp [fieldNN]

theorem toNat_fieldNNN (op : OpWord) : (fieldNNN op).toNat = op.toNat % 4096 := by simp [fieldNNN]

/-! ### The fields of a built word -/

@[simp] theorem fieldMajor_wordA (m : Nibble) (nnn : Addr) : fieldMajor (wordA m nnn) = m :=
  BitVec.eq_of_toNat_eq (by rw [toNat_fieldMajor, toNat_wordA]; have := nnn.isLt; omega)

@[simp] theorem fieldNNN_wordA (m : Nibble) (nnn : Addr) : fieldNNN (wordA m nnn) = nnn :=
  BitVec.eq_of_toNat_eq (by rw [toNat_fieldNNN, toNat_wordA]; have := nnn.isLt; omega)

@[simp] theorem fieldMajor_wordI (m : Nibble) (x : Reg) (nn : Byte) : fieldMajor (wordI m x nn) = m :=
  BitVec.eq_of_toNat_eq (by rw [toNat_fieldMajor, toNat_wordI]; have := nn.isLt; have := x.isLt; omega)

@[simp] theorem fieldX_wordI (m : Nibble) (x : Reg) (nn : Byte) : fieldX (wordI m x nn) = x :=
  Fin.ext (by rw [val_fieldX, toNat_wordI]; have := nn.isLt; have := x.isLt; omega)

@[simp] theorem fieldNN_wordI (m : Nibble) (x : Reg) (nn : Byte) : fieldNN (wordI m x nn) = nn :=
  BitVec.eq_of_toNat_eq (by rw [toNat_fieldNN, toNat_wordI]; have := nn.isLt; have := x.isLt; omega)

@[simp] theorem fieldMajor_wordR (m : Nibble) (x y : Reg) (n : Nibble) : fieldMajor (wordR m x y n) = m :=
  BitVec.eq_of_toNat_eq (by
    rw [toNat_fieldMajor, toNat_wordR]; have := n.isLt; have := x.isLt; have := y.isLt; omega)

@[simp] theorem fieldX_wordR (m : Nibble) (x y : Reg) (n : Nibble) : fieldX (wordR m x y n) = x :=
  Fin.ext (by rw [val_fieldX, toNat_wordR]; have := n.isLt; have := x.isLt; have := y.isLt; omega)

@[simp] theorem fieldY_wordR (m : Nibble) (x y : Reg) (n : Nibble) : fieldY (wordR m x y n) = y :=
  Fin.ext (by rw [val_fieldY, toNat_wordR]; have := n.isLt; have := x.isLt; have := y.isLt; omega)

@[simp] theorem fieldN_wordR (m : Nibble) (x y : Reg) (n : Nibble) : fieldN (wordR m x y n) = n :=
  BitVec.eq_of_toNat_eq (by
    rw [toNat_fieldN, toNat_wordR]; have := n.isLt; have := x.isLt; have := y.isLt; omega)

/-! ### The word its fields build -/

theorem wordA_fields (op : OpWord) : wordA (fieldMajor op) (fieldNNN op) = op :=
  BitVec.eq_of_toNat_eq (by rw [toNat_wordA, toNat_fieldMajor, toNat_fieldNNN]; omega)

theorem wordI_fields (op : OpWord) : wordI (fieldMajor op) (fieldX op) (fieldNN op) = op :=
  BitVec.eq_of_toNat_eq (by rw [toNat_wordI, toNat_fieldMajor, val_fieldX, toNat_fieldNN]; omega)

theorem wordR_fields (op : OpWord) : wordR (fieldMajor op) (fieldX op) (fieldY op) (fieldN op) = op :=
  BitVec.eq_of_toNat_eq (by
    rw [toNat_wordR, toNat_fieldMajor, val_fieldX, val_fieldY, toNat_fieldN]; omega)

/-! ### The bytes of a word -/

/-- A word laid out high byte first is read back (R32). -/
@[simp] theorem wordOfBytes_bytes (op : OpWord) :
    wordOfBytes (op.extractLsb' 8 8) (op.extractLsb' 0 8) = op :=
  BitVec.eq_of_toNat_eq (by
    have := op.isLt
    simp only [wordOfBytes, BitVec.toNat_append]
    rw [← Nat.shiftLeft_add_eq_or_of_lt (BitVec.isLt _)]
    simp [Nat.shiftLeft_eq, Nat.shiftRight_eq_div_pow]; omega)

/-! ### The masks of R58 -/

theorem wordA_and_mask (m : Nibble) (nnn : Addr) : wordA m nnn &&& 0xF000 = wordA m 0 := by
  have : (0xF000 : OpWord) = wordA 0xF 0 := by decide
  rw [this, wordA, wordA, wordA, BitVec.and_append]
  congr 1
  · exact BitVec.and_allOnes (x := m)
  · exact BitVec.and_zero

theorem wordI_and_mask (m : Nibble) (x : Reg) (nn : Byte) : wordI m x nn &&& 0xF000 = wordA m 0 :=
  wordA_and_mask m _

theorem wordR_and_major (m : Nibble) (x y : Reg) (n : Nibble) : wordR m x y n &&& 0xF000 = wordA m 0 :=
  wordA_and_mask m _

theorem wordR_and_mask (m : Nibble) (x y : Reg) (n : Nibble) : wordR m x y n &&& 0xF00F = wordR m 0 0 n := by
  have : (0xF00F : OpWord) = wordR 0xF 0 0 0xF := by decide
  rw [this, wordR, wordR, wordR, BitVec.and_append, BitVec.and_append, BitVec.and_append]
  congr 1
  · exact BitVec.and_allOnes (x := m)
  · congr 1
    · exact BitVec.and_zero
    · congr 1
      · exact BitVec.and_zero
      · exact BitVec.and_allOnes (x := n)

theorem wordX_and_mask (m : Nibble) (x : Reg) (minor : Byte) : wordX m x minor &&& 0xF0FF = wordX m 0 minor := by
  have : (0xF0FF : OpWord) = wordI 0xF 0 0xFF := by decide
  rw [this, wordX, wordX, wordI, wordI, wordI, BitVec.and_append, BitVec.and_append]
  congr 1
  · exact BitVec.and_allOnes (x := m)
  · congr 1
    · exact BitVec.and_zero
    · exact BitVec.and_allOnes (x := minor)

end Sys2Proof
end

