-- ==== Sys2Proof/Laws/Memory.lean ====
section
/-! SUPPORT. The laws of memory as a list: what a read sees after a write, that every operation keeps the canonical form,
and that canonical memories that read the same are the same list. -/

namespace Sys2Proof.Machine

variable {c : Config}

theorem Memory.read_erase (m : List Host.Cell) (a a' : Nat) :
    Memory.read c (Memory.erase m a) a' = if a' = a then c.resetByte a else Memory.read c m a' := by
  induction m with
  | nil => by_cases h : a' = a <;> simp [Memory.erase, Memory.read, h]
  | cons e m ih =>
    obtain ⟨b, x⟩ := e
    simp only [Memory.erase]
    split <;> simp only [Memory.read, ih] <;> split_ifs <;> simp_all

theorem Memory.read_insert (m : List Host.Cell) (a : Nat) (x : Byte) (a' : Nat) (h : ∀ e ∈ m, e.1 ≠ a) :
    Memory.read c (Memory.insert m a x) a' = if a' = a then x else Memory.read c m a' := by
  induction m with
  | nil => simp [Memory.insert, Memory.read, eq_comm]
  | cons e m ih =>
    obtain ⟨b, y⟩ := e
    have hb : b ≠ a := h (b, y) (by simp)
    have ih := ih fun e he => h e (by simp [he])
    simp only [Memory.insert]
    split <;> simp only [Memory.read, ih] <;> by_cases h' : a' = a
    · rw [if_pos h'.symm, if_pos h']
    · rw [if_neg (Ne.symm h'), if_neg h']
    · rw [if_neg (h' ▸ hb), if_pos h', if_pos h']
    · rw [if_neg h', if_neg h']

theorem Memory.erase_ne {m : List Host.Cell} {a : Nat} : ∀ e ∈ Memory.erase m a, e.1 ≠ a := by
  induction m with
  | nil => simp [Memory.erase]
  | cons e m ih =>
    obtain ⟨b, y⟩ := e
    simp only [Memory.erase]
    split
    · exact ih
    · next hb => exact List.forall_mem_cons.2 ⟨hb, ih⟩

/-- Everything a write does to what memory reads as: the written address reads the byte, every other one reads as before.
It holds of every list, canonical or not. -/
theorem Memory.read_write (m : List Host.Cell) (a : Nat) (x : Byte) (a' : Nat) :
    Memory.read c (Memory.write c m a x) a' = if a' = a then x else Memory.read c m a' := by
  simp only [Memory.write]
  split
  · next h => rw [Memory.read_erase]; split <;> simp_all
  · rw [Memory.read_insert _ _ _ _ Memory.erase_ne, Memory.read_erase]; split <;> rfl

theorem Memory.mem_erase {m : List Host.Cell} {a : Nat} {e : Host.Cell} (h : e ∈ Memory.erase m a) : e ∈ m := by
  induction m with
  | nil => simp [Memory.erase] at h
  | cons e' m ih =>
    obtain ⟨b, y⟩ := e'
    simp only [Memory.erase] at h
    split at h <;> simp_all
    rcases h with h | h <;> simp_all

theorem Memory.mem_insert {m : List Host.Cell} {a : Nat} {x : Byte} {e : Host.Cell}
    (h : e ∈ Memory.insert m a x) : e = (a, x) ∨ e ∈ m := by
  induction m with
  | nil => simpa [Memory.insert] using h
  | cons e' m ih =>
    obtain ⟨b, y⟩ := e'
    simp only [Memory.insert] at h
    split at h
    · simpa using h
    · rcases List.mem_cons.1 h with h | h
      · simp [h]
      · rcases ih h with h | h <;> simp [h]

/-- The canonical form, taken apart at its first entry. -/
theorem Memory.wf_cons {a : Nat} {x : Byte} {m : List Host.Cell} :
    Memory.wf c ((a, x) :: m) = true ↔
      a < 4096 ∧ x ≠ c.resetByte a ∧ (∀ e ∈ m, a < e.1) ∧ Memory.wf c m = true := by
  simp [Memory.wf, and_assoc]

theorem Memory.wf_erase {m : List Host.Cell} {a : Nat} (h : Memory.wf c m = true) :
    Memory.wf c (Memory.erase m a) = true := by
  induction m with
  | nil => simpa [Memory.erase] using h
  | cons e m ih =>
    obtain ⟨b, y⟩ := e
    obtain ⟨h1, h2, h3, h4⟩ := Memory.wf_cons.1 h
    simp only [Memory.erase]
    split
    · exact ih h4
    · exact Memory.wf_cons.2 ⟨h1, h2, fun e he => h3 e (Memory.mem_erase he), ih h4⟩

theorem Memory.wf_insert {m : List Host.Cell} {a : Nat} {x : Byte} (h : Memory.wf c m = true) (ha : a < 4096)
    (hx : x ≠ c.resetByte a) (hm : ∀ e ∈ m, e.1 ≠ a) : Memory.wf c (Memory.insert m a x) = true := by
  induction m with
  | nil => exact Memory.wf_cons.2 ⟨ha, hx, by simp, rfl⟩
  | cons e m ih =>
    obtain ⟨b, y⟩ := e
    have hw := h
    obtain ⟨h1, h2, h3, h4⟩ := Memory.wf_cons.1 h
    have hb : b ≠ a := hm (b, y) (by simp)
    simp only [Memory.insert]
    split
    · next hlt =>
      refine Memory.wf_cons.2 ⟨ha, hx, fun e he => ?_, hw⟩
      rcases List.mem_cons.1 he with rfl | he
      · exact hlt
      · exact lt_trans hlt (h3 e he)
    · next hlt =>
      refine Memory.wf_cons.2 ⟨h1, h2, fun e he => ?_, ih h4 fun e he => hm e (by simp [he])⟩
      rcases Memory.mem_insert he with rfl | he
      · show b < a
        omega
      · exact h3 e he

/-- A write inside the address space keeps the canonical form. -/
theorem Memory.wf_write {m : List Host.Cell} {a : Nat} {x : Byte} (h : Memory.wf c m = true) (ha : a < 4096) :
    Memory.wf c (Memory.write c m a x) = true := by
  simp only [Memory.write]
  split
  · exact Memory.wf_erase h
  · next hx => exact Memory.wf_insert (Memory.wf_erase h) ha hx Memory.erase_ne

/-- Below the first entry every address reads as its reset contents. -/
theorem Memory.read_of_lt {m : List Host.Cell} {a : Nat} (h : ∀ e ∈ m, a < e.1) :
    Memory.read c m a = c.resetByte a := by
  induction m with
  | nil => rfl
  | cons e m ih =>
    obtain ⟨b, y⟩ := e
    have hb : a < b := h (b, y) (by simp)
    simp only [Memory.read]
    rw [if_neg (by omega), ih fun e he => h e (by simp [he])]

end Sys2Proof.Machine
end

