-- ==== Sys2Proof/Laws/State.lean ====
section
/-! SUPPORT. One lemma per field per update of State, each true by `rfl`, so that no proof unfolds a record update. -/

namespace Sys2Proof.Machine

variable (s : State)

/-! ### State.setV -/

@[simp] theorem State.setV_v (x : Reg) (b : Byte) : (s.setV x b).v = s.v.set x b := rfl
@[simp] theorem State.setV_i (x : Reg) (b : Byte) : (s.setV x b).i = s.i := rfl
@[simp] theorem State.setV_pc (x : Reg) (b : Byte) : (s.setV x b).pc = s.pc := rfl
@[simp] theorem State.setV_sp (x : Reg) (b : Byte) : (s.setV x b).sp = s.sp := rfl
@[simp] theorem State.setV_stk (x : Reg) (b : Byte) : (s.setV x b).stk = s.stk := rfl
@[simp] theorem State.setV_dt (x : Reg) (b : Byte) : (s.setV x b).dt = s.dt := rfl
@[simp] theorem State.setV_st (x : Reg) (b : Byte) : (s.setV x b).st = s.st := rfl
@[simp] theorem State.setV_err (x : Reg) (b : Byte) : (s.setV x b).err = s.err := rfl
@[simp] theorem State.setV_mem (x : Reg) (b : Byte) : (s.setV x b).mem = s.mem := rfl
@[simp] theorem State.setV_disp (x : Reg) (b : Byte) : (s.setV x b).disp = s.disp := rfl
@[simp] theorem State.setV_key (x : Reg) (b : Byte) : (s.setV x b).key = s.key := rfl
@[simp] theorem State.setV_cfg (x : Reg) (b : Byte) : (s.setV x b).cfg = s.cfg := rfl
@[simp] theorem State.setV_draws (x : Reg) (b : Byte) : (s.setV x b).draws = s.draws := rfl
@[simp] theorem State.setV_schedule (x : Reg) (b : Byte) : (s.setV x b).schedule = s.schedule := rfl

/-! ### State.setI -/

@[simp] theorem State.setI_v (a : Addr) : (s.setI a).v = s.v := rfl
@[simp] theorem State.setI_i (a : Addr) : (s.setI a).i = a := rfl
@[simp] theorem State.setI_pc (a : Addr) : (s.setI a).pc = s.pc := rfl
@[simp] theorem State.setI_sp (a : Addr) : (s.setI a).sp = s.sp := rfl
@[simp] theorem State.setI_stk (a : Addr) : (s.setI a).stk = s.stk := rfl
@[simp] theorem State.setI_dt (a : Addr) : (s.setI a).dt = s.dt := rfl
@[simp] theorem State.setI_st (a : Addr) : (s.setI a).st = s.st := rfl
@[simp] theorem State.setI_err (a : Addr) : (s.setI a).err = s.err := rfl
@[simp] theorem State.setI_mem (a : Addr) : (s.setI a).mem = s.mem := rfl
@[simp] theorem State.setI_disp (a : Addr) : (s.setI a).disp = s.disp := rfl
@[simp] theorem State.setI_key (a : Addr) : (s.setI a).key = s.key := rfl
@[simp] theorem State.setI_cfg (a : Addr) : (s.setI a).cfg = s.cfg := rfl
@[simp] theorem State.setI_draws (a : Addr) : (s.setI a).draws = s.draws := rfl
@[simp] theorem State.setI_schedule (a : Addr) : (s.setI a).schedule = s.schedule := rfl

/-! ### State.setDT -/

@[simp] theorem State.setDT_v (b : Byte) : (s.setDT b).v = s.v := rfl
@[simp] theorem State.setDT_i (b : Byte) : (s.setDT b).i = s.i := rfl
@[simp] theorem State.setDT_pc (b : Byte) : (s.setDT b).pc = s.pc := rfl
@[simp] theorem State.setDT_sp (b : Byte) : (s.setDT b).sp = s.sp := rfl
@[simp] theorem State.setDT_stk (b : Byte) : (s.setDT b).stk = s.stk := rfl
@[simp] theorem State.setDT_dt (b : Byte) : (s.setDT b).dt = b := rfl
@[simp] theorem State.setDT_st (b : Byte) : (s.setDT b).st = s.st := rfl
@[simp] theorem State.setDT_err (b : Byte) : (s.setDT b).err = s.err := rfl
@[simp] theorem State.setDT_mem (b : Byte) : (s.setDT b).mem = s.mem := rfl
@[simp] theorem State.setDT_disp (b : Byte) : (s.setDT b).disp = s.disp := rfl
@[simp] theorem State.setDT_key (b : Byte) : (s.setDT b).key = s.key := rfl
@[simp] theorem State.setDT_cfg (b : Byte) : (s.setDT b).cfg = s.cfg := rfl
@[simp] theorem State.setDT_draws (b : Byte) : (s.setDT b).draws = s.draws := rfl
@[simp] theorem State.setDT_schedule (b : Byte) : (s.setDT b).schedule = s.schedule := rfl

/-! ### State.setST -/

@[simp] theorem State.setST_v (b : Byte) : (s.setST b).v = s.v := rfl
@[simp] theorem State.setST_i (b : Byte) : (s.setST b).i = s.i := rfl
@[simp] theorem State.setST_pc (b : Byte) : (s.setST b).pc = s.pc := rfl
@[simp] theorem State.setST_sp (b : Byte) : (s.setST b).sp = s.sp := rfl
@[simp] theorem State.setST_stk (b : Byte) : (s.setST b).stk = s.stk := rfl
@[simp] theorem State.setST_dt (b : Byte) : (s.setST b).dt = s.dt := rfl
@[simp] theorem State.setST_st (b : Byte) : (s.setST b).st = b := rfl
@[simp] theorem State.setST_err (b : Byte) : (s.setST b).err = s.err := rfl
@[simp] theorem State.setST_mem (b : Byte) : (s.setST b).mem = s.mem := rfl
@[simp] theorem State.setST_disp (b : Byte) : (s.setST b).disp = s.disp := rfl
@[simp] theorem State.setST_key (b : Byte) : (s.setST b).key = s.key := rfl
@[simp] theorem State.setST_cfg (b : Byte) : (s.setST b).cfg = s.cfg := rfl
@[simp] theorem State.setST_draws (b : Byte) : (s.setST b).draws = s.draws := rfl
@[simp] theorem State.setST_schedule (b : Byte) : (s.setST b).schedule = s.schedule := rfl

/-! ### State.setPc -/

@[simp] theorem State.setPc_v (a : Addr) : (s.setPc a).v = s.v := rfl
@[simp] theorem State.setPc_i (a : Addr) : (s.setPc a).i = s.i := rfl
@[simp] theorem State.setPc_pc (a : Addr) : (s.setPc a).pc = a := rfl
@[simp] theorem State.setPc_sp (a : Addr) : (s.setPc a).sp = s.sp := rfl
@[simp] theorem State.setPc_stk (a : Addr) : (s.setPc a).stk = s.stk := rfl
@[simp] theorem State.setPc_dt (a : Addr) : (s.setPc a).dt = s.dt := rfl
@[simp] theorem State.setPc_st (a : Addr) : (s.setPc a).st = s.st := rfl
@[simp] theorem State.setPc_err (a : Addr) : (s.setPc a).err = s.err := rfl
@[simp] theorem State.setPc_mem (a : Addr) : (s.setPc a).mem = s.mem := rfl
@[simp] theorem State.setPc_disp (a : Addr) : (s.setPc a).disp = s.disp := rfl
@[simp] theorem State.setPc_key (a : Addr) : (s.setPc a).key = s.key := rfl
@[simp] theorem State.setPc_cfg (a : Addr) : (s.setPc a).cfg = s.cfg := rfl
@[simp] theorem State.setPc_draws (a : Addr) : (s.setPc a).draws = s.draws := rfl
@[simp] theorem State.setPc_schedule (a : Addr) : (s.setPc a).schedule = s.schedule := rfl

/-! ### State.setDisp -/

@[simp] theorem State.setDisp_v (d : Display) : (s.setDisp d).v = s.v := rfl
@[simp] theorem State.setDisp_i (d : Display) : (s.setDisp d).i = s.i := rfl
@[simp] theorem State.setDisp_pc (d : Display) : (s.setDisp d).pc = s.pc := rfl
@[simp] theorem State.setDisp_sp (d : Display) : (s.setDisp d).sp = s.sp := rfl
@[simp] theorem State.setDisp_stk (d : Display) : (s.setDisp d).stk = s.stk := rfl
@[simp] theorem State.setDisp_dt (d : Display) : (s.setDisp d).dt = s.dt := rfl
@[simp] theorem State.setDisp_st (d : Display) : (s.setDisp d).st = s.st := rfl
@[simp] theorem State.setDisp_err (d : Display) : (s.setDisp d).err = s.err := rfl
@[simp] theorem State.setDisp_mem (d : Display) : (s.setDisp d).mem = s.mem := rfl
@[simp] theorem State.setDisp_disp (d : Display) : (s.setDisp d).disp = d := rfl
@[simp] theorem State.setDisp_key (d : Display) : (s.setDisp d).key = s.key := rfl
@[simp] theorem State.setDisp_cfg (d : Display) : (s.setDisp d).cfg = s.cfg := rfl
@[simp] theorem State.setDisp_draws (d : Display) : (s.setDisp d).draws = s.draws := rfl
@[simp] theorem State.setDisp_schedule (d : Display) : (s.setDisp d).schedule = s.schedule := rfl

/-! ### State.countDraw -/

@[simp] theorem State.countDraw_v : s.countDraw.v = s.v := rfl
@[simp] theorem State.countDraw_i : s.countDraw.i = s.i := rfl
@[simp] theorem State.countDraw_pc : s.countDraw.pc = s.pc := rfl
@[simp] theorem State.countDraw_sp : s.countDraw.sp = s.sp := rfl
@[simp] theorem State.countDraw_stk : s.countDraw.stk = s.stk := rfl
@[simp] theorem State.countDraw_dt : s.countDraw.dt = s.dt := rfl
@[simp] theorem State.countDraw_st : s.countDraw.st = s.st := rfl
@[simp] theorem State.countDraw_err : s.countDraw.err = s.err := rfl
@[simp] theorem State.countDraw_mem : s.countDraw.mem = s.mem := rfl
@[simp] theorem State.countDraw_disp : s.countDraw.disp = s.disp := rfl
@[simp] theorem State.countDraw_key : s.countDraw.key = s.key := rfl
@[simp] theorem State.countDraw_cfg : s.countDraw.cfg = s.cfg := rfl
@[simp] theorem State.countDraw_draws : s.countDraw.draws = s.draws + 1 := rfl
@[simp] theorem State.countDraw_schedule : s.countDraw.schedule = s.schedule := rfl

/-! ### State.push -/

@[simp] theorem State.push_v (a : Addr) : (s.push a).v = s.v := rfl
@[simp] theorem State.push_i (a : Addr) : (s.push a).i = s.i := rfl
@[simp] theorem State.push_pc (a : Addr) : (s.push a).pc = s.pc := rfl
@[simp] theorem State.push_sp (a : Addr) : (s.push a).sp = s.sp + 1 := rfl
@[simp] theorem State.push_stk (a : Addr) : (s.push a).stk = s.stk.set s.sp a := rfl
@[simp] theorem State.push_dt (a : Addr) : (s.push a).dt = s.dt := rfl
@[simp] theorem State.push_st (a : Addr) : (s.push a).st = s.st := rfl
@[simp] theorem State.push_err (a : Addr) : (s.push a).err = s.err := rfl
@[simp] theorem State.push_mem (a : Addr) : (s.push a).mem = s.mem := rfl
@[simp] theorem State.push_disp (a : Addr) : (s.push a).disp = s.disp := rfl
@[simp] theorem State.push_key (a : Addr) : (s.push a).key = s.key := rfl
@[simp] theorem State.push_cfg (a : Addr) : (s.push a).cfg = s.cfg := rfl
@[simp] theorem State.push_draws (a : Addr) : (s.push a).draws = s.draws := rfl
@[simp] theorem State.push_schedule (a : Addr) : (s.push a).schedule = s.schedule := rfl

/-! ### State.pop -/

@[simp] theorem State.pop_v : s.pop.v = s.v := rfl
@[simp] theorem State.pop_i : s.pop.i = s.i := rfl
@[simp] theorem State.pop_pc : s.pop.pc = s.pc := rfl
@[simp] theorem State.pop_sp : s.pop.sp = s.sp - 1 := rfl
@[simp] theorem State.pop_stk : s.pop.stk = s.stk := rfl
@[simp] theorem State.pop_dt : s.pop.dt = s.dt := rfl
@[simp] theorem State.pop_st : s.pop.st = s.st := rfl
@[simp] theorem State.pop_err : s.pop.err = s.err := rfl
@[simp] theorem State.pop_mem : s.pop.mem = s.mem := rfl
@[simp] theorem State.pop_disp : s.pop.disp = s.disp := rfl
@[simp] theorem State.pop_key : s.pop.key = s.key := rfl
@[simp] theorem State.pop_cfg : s.pop.cfg = s.cfg := rfl
@[simp] theorem State.pop_draws : s.pop.draws = s.draws := rfl
@[simp] theorem State.pop_schedule : s.pop.schedule = s.schedule := rfl

/-! ### State.memWrite -/

@[simp] theorem State.memWrite_v (addr : Nat) (b : Byte) : (s.memWrite addr b).v = s.v := rfl
@[simp] theorem State.memWrite_i (addr : Nat) (b : Byte) : (s.memWrite addr b).i = s.i := rfl
@[simp] theorem State.memWrite_pc (addr : Nat) (b : Byte) : (s.memWrite addr b).pc = s.pc := rfl
@[simp] theorem State.memWrite_sp (addr : Nat) (b : Byte) : (s.memWrite addr b).sp = s.sp := rfl
@[simp] theorem State.memWrite_stk (addr : Nat) (b : Byte) : (s.memWrite addr b).stk = s.stk := rfl
@[simp] theorem State.memWrite_dt (addr : Nat) (b : Byte) : (s.memWrite addr b).dt = s.dt := rfl
@[simp] theorem State.memWrite_st (addr : Nat) (b : Byte) : (s.memWrite addr b).st = s.st := rfl
@[simp] theorem State.memWrite_err (addr : Nat) (b : Byte) : (s.memWrite addr b).err = s.err := rfl
@[simp] theorem State.memWrite_mem (addr : Nat) (b : Byte) : (s.memWrite addr b).mem = Memory.write s.cfg s.mem (addr % 4096) b := rfl
@[simp] theorem State.memWrite_disp (addr : Nat) (b : Byte) : (s.memWrite addr b).disp = s.disp := rfl
@[simp] theorem State.memWrite_key (addr : Nat) (b : Byte) : (s.memWrite addr b).key = s.key := rfl
@[simp] theorem State.memWrite_cfg (addr : Nat) (b : Byte) : (s.memWrite addr b).cfg = s.cfg := rfl
@[simp] theorem State.memWrite_draws (addr : Nat) (b : Byte) : (s.memWrite addr b).draws = s.draws := rfl
@[simp] theorem State.memWrite_schedule (addr : Nat) (b : Byte) : (s.memWrite addr b).schedule = s.schedule := rfl

/-! ### State.raise -/

@[simp] theorem State.raise_v (e : StepError) : (s.raise e).v = s.v := rfl
@[simp] theorem State.raise_i (e : StepError) : (s.raise e).i = s.i := rfl
@[simp] theorem State.raise_pc (e : StepError) : (s.raise e).pc = s.pc := rfl
@[simp] theorem State.raise_sp (e : StepError) : (s.raise e).sp = s.sp := rfl
@[simp] theorem State.raise_stk (e : StepError) : (s.raise e).stk = s.stk := rfl
@[simp] theorem State.raise_dt (e : StepError) : (s.raise e).dt = s.dt := rfl
@[simp] theorem State.raise_st (e : StepError) : (s.raise e).st = s.st := rfl
@[simp] theorem State.raise_err (e : StepError) : (s.raise e).err = some e := rfl
@[simp] theorem State.raise_mem (e : StepError) : (s.raise e).mem = s.mem := rfl
@[simp] theorem State.raise_disp (e : StepError) : (s.raise e).disp = s.disp := rfl
@[simp] theorem State.raise_key (e : StepError) : (s.raise e).key = s.key := rfl
@[simp] theorem State.raise_cfg (e : StepError) : (s.raise e).cfg = s.cfg := rfl
@[simp] theorem State.raise_draws (e : StepError) : (s.raise e).draws = s.draws := rfl
@[simp] theorem State.raise_schedule (e : StepError) : (s.raise e).schedule = s.schedule := rfl

/-! ### State.setKeys -/

@[simp] theorem State.setKeys_v (k : Keypad) : (s.setKeys k).v = s.v := rfl
@[simp] theorem State.setKeys_i (k : Keypad) : (s.setKeys k).i = s.i := rfl
@[simp] theorem State.setKeys_pc (k : Keypad) : (s.setKeys k).pc = s.pc := rfl
@[simp] theorem State.setKeys_sp (k : Keypad) : (s.setKeys k).sp = s.sp := rfl
@[simp] theorem State.setKeys_stk (k : Keypad) : (s.setKeys k).stk = s.stk := rfl
@[simp] theorem State.setKeys_dt (k : Keypad) : (s.setKeys k).dt = s.dt := rfl
@[simp] theorem State.setKeys_st (k : Keypad) : (s.setKeys k).st = s.st := rfl
@[simp] theorem State.setKeys_err (k : Keypad) : (s.setKeys k).err = s.err := rfl
@[simp] theorem State.setKeys_mem (k : Keypad) : (s.setKeys k).mem = s.mem := rfl
@[simp] theorem State.setKeys_disp (k : Keypad) : (s.setKeys k).disp = s.disp := rfl
@[simp] theorem State.setKeys_key (k : Keypad) : (s.setKeys k).key = k := rfl
@[simp] theorem State.setKeys_cfg (k : Keypad) : (s.setKeys k).cfg = s.cfg := rfl
@[simp] theorem State.setKeys_draws (k : Keypad) : (s.setKeys k).draws = s.draws := rfl
@[simp] theorem State.setKeys_schedule (k : Keypad) : (s.setKeys k).schedule = s.schedule := rfl

/-! ### State.advance -/

@[simp] theorem State.advance_v : s.advance.v = s.v := rfl
@[simp] theorem State.advance_i : s.advance.i = s.i := rfl
@[simp] theorem State.advance_pc : s.advance.pc = s.pc + 2 := rfl
@[simp] theorem State.advance_sp : s.advance.sp = s.sp := rfl
@[simp] theorem State.advance_stk : s.advance.stk = s.stk := rfl
@[simp] theorem State.advance_dt : s.advance.dt = s.dt := rfl
@[simp] theorem State.advance_st : s.advance.st = s.st := rfl
@[simp] theorem State.advance_err : s.advance.err = s.err := rfl
@[simp] theorem State.advance_mem : s.advance.mem = s.mem := rfl
@[simp] theorem State.advance_disp : s.advance.disp = s.disp := rfl
@[simp] theorem State.advance_key : s.advance.key = s.key := rfl
@[simp] theorem State.advance_cfg : s.advance.cfg = s.cfg := rfl
@[simp] theorem State.advance_draws : s.advance.draws = s.draws := rfl
@[simp] theorem State.advance_schedule : s.advance.schedule = s.schedule := rfl

/-! ### State.skipIf -/

@[simp] theorem State.skipIf_v (c : Bool) : (s.skipIf c).v = s.v := rfl
@[simp] theorem State.skipIf_i (c : Bool) : (s.skipIf c).i = s.i := rfl
@[simp] theorem State.skipIf_pc (c : Bool) : (s.skipIf c).pc = if c then s.pc + 2 + 2 else s.pc + 2 := rfl
@[simp] theorem State.skipIf_sp (c : Bool) : (s.skipIf c).sp = s.sp := rfl
@[simp] theorem State.skipIf_stk (c : Bool) : (s.skipIf c).stk = s.stk := rfl
@[simp] theorem State.skipIf_dt (c : Bool) : (s.skipIf c).dt = s.dt := rfl
@[simp] theorem State.skipIf_st (c : Bool) : (s.skipIf c).st = s.st := rfl
@[simp] theorem State.skipIf_err (c : Bool) : (s.skipIf c).err = s.err := rfl
@[simp] theorem State.skipIf_mem (c : Bool) : (s.skipIf c).mem = s.mem := rfl
@[simp] theorem State.skipIf_disp (c : Bool) : (s.skipIf c).disp = s.disp := rfl
@[simp] theorem State.skipIf_key (c : Bool) : (s.skipIf c).key = s.key := rfl
@[simp] theorem State.skipIf_cfg (c : Bool) : (s.skipIf c).cfg = s.cfg := rfl
@[simp] theorem State.skipIf_draws (c : Bool) : (s.skipIf c).draws = s.draws := rfl
@[simp] theorem State.skipIf_schedule (c : Bool) : (s.skipIf c).schedule = s.schedule := rfl

/-! ### State.finishFlagged -/

@[simp] theorem State.finishFlagged_v (x : Reg) (r : Byte) (f : Bool) : (s.finishFlagged x r f).v = (s.v.set x r).set flagReg (flagByte f) := rfl
@[simp] theorem State.finishFlagged_i (x : Reg) (r : Byte) (f : Bool) : (s.finishFlagged x r f).i = s.i := rfl
@[simp] theorem State.finishFlagged_pc (x : Reg) (r : Byte) (f : Bool) : (s.finishFlagged x r f).pc = s.pc + 2 := rfl
@[simp] theorem State.finishFlagged_sp (x : Reg) (r : Byte) (f : Bool) : (s.finishFlagged x r f).sp = s.sp := rfl
@[simp] theorem State.finishFlagged_stk (x : Reg) (r : Byte) (f : Bool) : (s.finishFlagged x r f).stk = s.stk := rfl
@[simp] theorem State.finishFlagged_dt (x : Reg) (r : Byte) (f : Bool) : (s.finishFlagged x r f).dt = s.dt := rfl
@[simp] theorem State.finishFlagged_st (x : Reg) (r : Byte) (f : Bool) : (s.finishFlagged x r f).st = s.st := rfl
@[simp] theorem State.finishFlagged_err (x : Reg) (r : Byte) (f : Bool) : (s.finishFlagged x r f).err = s.err := rfl
@[simp] theorem State.finishFlagged_mem (x : Reg) (r : Byte) (f : Bool) : (s.finishFlagged x r f).mem = s.mem := rfl
@[simp] theorem State.finishFlagged_disp (x : Reg) (r : Byte) (f : Bool) : (s.finishFlagged x r f).disp = s.disp := rfl
@[simp] theorem State.finishFlagged_key (x : Reg) (r : Byte) (f : Bool) : (s.finishFlagged x r f).key = s.key := rfl
@[simp] theorem State.finishFlagged_cfg (x : Reg) (r : Byte) (f : Bool) : (s.finishFlagged x r f).cfg = s.cfg := rfl
@[simp] theorem State.finishFlagged_draws (x : Reg) (r : Byte) (f : Bool) : (s.finishFlagged x r f).draws = s.draws := rfl
@[simp] theorem State.finishFlagged_schedule (x : Reg) (r : Byte) (f : Bool) : (s.finishFlagged x r f).schedule = s.schedule := rfl

/-! ### Accessors -/

theorem State.getV_def (x : Reg) : s.getV x = s.v[x] := rfl
theorem State.keyDown_def (k : Fin 16) : s.keyDown k = s.key[k] := rfl
theorem State.stkAt_def (k : Nat) : s.stkAt k = s.stk.getD k 0 := rfl
@[simp] theorem State.nextPc_def : s.nextPc = s.pc + 2 := rfl

/-! `getV` after an update that does not touch it. -/

@[simp] theorem State.setI_getV (a : Addr) (y : Reg) : (s.setI a).getV y = s.getV y := rfl
@[simp] theorem State.setDT_getV (b : Byte) (y : Reg) : (s.setDT b).getV y = s.getV y := rfl
@[simp] theorem State.setST_getV (b : Byte) (y : Reg) : (s.setST b).getV y = s.getV y := rfl
@[simp] theorem State.setPc_getV (a : Addr) (y : Reg) : (s.setPc a).getV y = s.getV y := rfl
@[simp] theorem State.setDisp_getV (d : Display) (y : Reg) : (s.setDisp d).getV y = s.getV y := rfl
@[simp] theorem State.countDraw_getV (y : Reg) : s.countDraw.getV y = s.getV y := rfl
@[simp] theorem State.push_getV (a : Addr) (y : Reg) : (s.push a).getV y = s.getV y := rfl
@[simp] theorem State.pop_getV (y : Reg) : s.pop.getV y = s.getV y := rfl
@[simp] theorem State.memWrite_getV (addr : Nat) (b : Byte) (y : Reg) : (s.memWrite addr b).getV y = s.getV y := rfl
@[simp] theorem State.raise_getV (e : StepError) (y : Reg) : (s.raise e).getV y = s.getV y := rfl
@[simp] theorem State.setKeys_getV (k : Keypad) (y : Reg) : (s.setKeys k).getV y = s.getV y := rfl
@[simp] theorem State.advance_getV (y : Reg) : s.advance.getV y = s.getV y := rfl
@[simp] theorem State.skipIf_getV (c : Bool) (y : Reg) : (s.skipIf c).getV y = s.getV y := rfl

/-! `keyDown` after an update that does not touch it. -/

@[simp] theorem State.setV_keyDown (x : Reg) (b : Byte) (j : Fin 16) : (s.setV x b).keyDown j = s.keyDown j := rfl
@[simp] theorem State.setI_keyDown (a : Addr) (j : Fin 16) : (s.setI a).keyDown j = s.keyDown j := rfl
@[simp] theorem State.setDT_keyDown (b : Byte) (j : Fin 16) : (s.setDT b).keyDown j = s.keyDown j := rfl
@[simp] theorem State.setST_keyDown (b : Byte) (j : Fin 16) : (s.setST b).keyDown j = s.keyDown j := rfl
@[simp] theorem State.setPc_keyDown (a : Addr) (j : Fin 16) : (s.setPc a).keyDown j = s.keyDown j := rfl
@[simp] theorem State.setDisp_keyDown (d : Display) (j : Fin 16) : (s.setDisp d).keyDown j = s.keyDown j := rfl
@[simp] theorem State.countDraw_keyDown (j : Fin 16) : s.countDraw.keyDown j = s.keyDown j := rfl
@[simp] theorem State.push_keyDown (a : Addr) (j : Fin 16) : (s.push a).keyDown j = s.keyDown j := rfl
@[simp] theorem State.pop_keyDown (j : Fin 16) : s.pop.keyDown j = s.keyDown j := rfl
@[simp] theorem State.memWrite_keyDown (addr : Nat) (b : Byte) (j : Fin 16) : (s.memWrite addr b).keyDown j = s.keyDown j := rfl
@[simp] theorem State.raise_keyDown (e : StepError) (j : Fin 16) : (s.raise e).keyDown j = s.keyDown j := rfl
@[simp] theorem State.advance_keyDown (j : Fin 16) : s.advance.keyDown j = s.keyDown j := rfl
@[simp] theorem State.skipIf_keyDown (c : Bool) (j : Fin 16) : (s.skipIf c).keyDown j = s.keyDown j := rfl
@[simp] theorem State.finishFlagged_keyDown (x : Reg) (r : Byte) (f : Bool) (j : Fin 16) : (s.finishFlagged x r f).keyDown j = s.keyDown j := rfl

/-! `stkAt` after an update that does not touch it. -/

@[simp] theorem State.setV_stkAt (x : Reg) (b : Byte) (j : Nat) : (s.setV x b).stkAt j = s.stkAt j := rfl
@[simp] theorem State.setI_stkAt (a : Addr) (j : Nat) : (s.setI a).stkAt j = s.stkAt j := rfl
@[simp] theorem State.setDT_stkAt (b : Byte) (j : Nat) : (s.setDT b).stkAt j = s.stkAt j := rfl
@[simp] theorem State.setST_stkAt (b : Byte) (j : Nat) : (s.setST b).stkAt j = s.stkAt j := rfl
@[simp] theorem State.setPc_stkAt (a : Addr) (j : Nat) : (s.setPc a).stkAt j = s.stkAt j := rfl
@[simp] theorem State.setDisp_stkAt (d : Display) (j : Nat) : (s.setDisp d).stkAt j = s.stkAt j := rfl
@[simp] theorem State.countDraw_stkAt (j : Nat) : s.countDraw.stkAt j = s.stkAt j := rfl
@[simp] theorem State.pop_stkAt (j : Nat) : s.pop.stkAt j = s.stkAt j := rfl
@[simp] theorem State.memWrite_stkAt (addr : Nat) (b : Byte) (j : Nat) : (s.memWrite addr b).stkAt j = s.stkAt j := rfl
@[simp] theorem State.raise_stkAt (e : StepError) (j : Nat) : (s.raise e).stkAt j = s.stkAt j := rfl
@[simp] theorem State.setKeys_stkAt (k : Keypad) (j : Nat) : (s.setKeys k).stkAt j = s.stkAt j := rfl
@[simp] theorem State.advance_stkAt (j : Nat) : s.advance.stkAt j = s.stkAt j := rfl
@[simp] theorem State.skipIf_stkAt (c : Bool) (j : Nat) : (s.skipIf c).stkAt j = s.stkAt j := rfl
@[simp] theorem State.finishFlagged_stkAt (x : Reg) (r : Byte) (f : Bool) (j : Nat) : (s.finishFlagged x r f).stkAt j = s.stkAt j := rfl

/-! `memRead` after an update that does not touch it. -/

@[simp] theorem State.setV_memRead (x : Reg) (b : Byte) (m : Nat) : (s.setV x b).memRead m = s.memRead m := rfl
@[simp] theorem State.setI_memRead (a : Addr) (m : Nat) : (s.setI a).memRead m = s.memRead m := rfl
@[simp] theorem State.setDT_memRead (b : Byte) (m : Nat) : (s.setDT b).memRead m = s.memRead m := rfl
@[simp] theorem State.setST_memRead (b : Byte) (m : Nat) : (s.setST b).memRead m = s.memRead m := rfl
@[simp] theorem State.setPc_memRead (a : Addr) (m : Nat) : (s.setPc a).memRead m = s.memRead m := rfl
@[simp] theorem State.setDisp_memRead (d : Display) (m : Nat) : (s.setDisp d).memRead m = s.memRead m := rfl
@[simp] theorem State.countDraw_memRead (m : Nat) : s.countDraw.memRead m = s.memRead m := rfl
@[simp] theorem State.push_memRead (a : Addr) (m : Nat) : (s.push a).memRead m = s.memRead m := rfl
@[simp] theorem State.pop_memRead (m : Nat) : s.pop.memRead m = s.memRead m := rfl
@[simp] theorem State.raise_memRead (e : StepError) (m : Nat) : (s.raise e).memRead m = s.memRead m := rfl
@[simp] theorem State.setKeys_memRead (k : Keypad) (m : Nat) : (s.setKeys k).memRead m = s.memRead m := rfl
@[simp] theorem State.advance_memRead (m : Nat) : s.advance.memRead m = s.memRead m := rfl
@[simp] theorem State.skipIf_memRead (c : Bool) (m : Nat) : (s.skipIf c).memRead m = s.memRead m := rfl
@[simp] theorem State.finishFlagged_memRead (x : Reg) (r : Byte) (f : Bool) (m : Nat) : (s.finishFlagged x r f).memRead m = s.memRead m := rfl

/-! `ea` after an update that does not touch it. -/

@[simp] theorem State.setV_ea (x : Reg) (b : Byte) (j : Nat) : (s.setV x b).ea j = s.ea j := rfl
@[simp] theorem State.setDT_ea (b : Byte) (j : Nat) : (s.setDT b).ea j = s.ea j := rfl
@[simp] theorem State.setST_ea (b : Byte) (j : Nat) : (s.setST b).ea j = s.ea j := rfl
@[simp] theorem State.setPc_ea (a : Addr) (j : Nat) : (s.setPc a).ea j = s.ea j := rfl
@[simp] theorem State.setDisp_ea (d : Display) (j : Nat) : (s.setDisp d).ea j = s.ea j := rfl
@[simp] theorem State.countDraw_ea (j : Nat) : s.countDraw.ea j = s.ea j := rfl
@[simp] theorem State.push_ea (a : Addr) (j : Nat) : (s.push a).ea j = s.ea j := rfl
@[simp] theorem State.pop_ea (j : Nat) : s.pop.ea j = s.ea j := rfl
@[simp] theorem State.memWrite_ea (addr : Nat) (b : Byte) (j : Nat) : (s.memWrite addr b).ea j = s.ea j := rfl
@[simp] theorem State.raise_ea (e : StepError) (j : Nat) : (s.raise e).ea j = s.ea j := rfl
@[simp] theorem State.setKeys_ea (k : Keypad) (j : Nat) : (s.setKeys k).ea j = s.ea j := rfl
@[simp] theorem State.advance_ea (j : Nat) : s.advance.ea j = s.ea j := rfl
@[simp] theorem State.skipIf_ea (c : Bool) (j : Nat) : (s.skipIf c).ea j = s.ea j := rfl
@[simp] theorem State.finishFlagged_ea (x : Reg) (r : Byte) (f : Bool) (j : Nat) : (s.finishFlagged x r f).ea j = s.ea j := rfl

end Sys2Proof.Machine
end

