-- ==== Sys2Proof/Laws/Ops.lean ====
section
/-! SUPPORT. One lemma per shared operation that says everything it does: registers, the stack, memory reads after writes,
the store and load loops of `FX33`, `FX55`, `Load` and `FX65`. -/

namespace Sys2Proof.Machine

variable (s : State)

/-! ### Registers and the stack -/

/-- Reading a register after a register write. -/
theorem State.getV_setV (x y : Reg) (b : Byte) : (s.setV x b).getV y = if y = x then b else s.getV y := by
  have : (x : Nat) = y ↔ y = x := ⟨fun h => Fin.ext h.symm, fun h => by rw [h]⟩
  simp [State.getV, State.setV, Vector.getElem_set, this]

/-- The registers after a flag-writing instruction: the flag register holds the flag, whatever the destination (R81). -/
theorem State.getV_finishFlagged (x y : Reg) (r : Byte) (f : Bool) :
    (s.finishFlagged x r f).getV y = if y = flagReg then flagByte f else if y = x then r else s.getV y := by
  show (((s.setV x r).setV flagReg (flagByte f)).advance).getV y = _
  rw [State.advance_getV, State.getV_setV, State.getV_setV]

/-- Reading a stack entry after a push. -/
theorem State.stkAt_push (a : Addr) (k : Nat) (h : s.sp < s.stk.length) :
    (s.push a).stkAt k = if k = s.sp then a else s.stkAt k := by
  simp only [State.stkAt_def, State.push_stk, List.getD_eq_getElem?_getD, List.getElem?_set]
  by_cases hk : k = s.sp
  · simp [hk, h]
  · simp [hk, Ne.symm hk]

/-! ### Memory -/

/-- Everything a one-byte write does to what memory reads as (R33, R34). -/
theorem State.memRead_memWrite (addr : Nat) (b : Byte) (a : Nat) :
    (s.memWrite addr b).memRead a = if a % 4096 = addr % 4096 then b else s.memRead a := by
  simp [State.memRead, Memory.read_write]

/-- An address and its reduction read the same byte (R34). -/
@[simp] theorem State.memRead_mod (a : Nat) : s.memRead (a % 4096) = s.memRead a := by
  simp [State.memRead]

/-- The effective address reads as the unreduced sum does. -/
@[simp] theorem State.memRead_ea (k : Nat) : s.memRead (s.ea k) = s.memRead (s.i.toNat + k) := by
  simp [State.ea]

/-- A field that no one-byte write changes is not changed by storing bytes. -/
theorem State.storeBytes_keeps {α : Type} (f : State → α) (hf : ∀ t a b, f (State.memWrite t a b) = f t) (addr : Nat)
    (bs : List Byte) : f (s.storeBytes addr bs) = f s := by
  induction bs generalizing s addr with
  | nil => rfl
  | cons b bs ih => rw [State.storeBytes, ih, hf]

@[simp] theorem State.storeBytes_v (a : Nat) (bs : List Byte) : (s.storeBytes a bs).v = s.v :=
  s.storeBytes_keeps State.v (fun _ _ _ => rfl) a bs
@[simp] theorem State.storeBytes_i (a : Nat) (bs : List Byte) : (s.storeBytes a bs).i = s.i :=
  s.storeBytes_keeps State.i (fun _ _ _ => rfl) a bs
@[simp] theorem State.storeBytes_pc (a : Nat) (bs : List Byte) : (s.storeBytes a bs).pc = s.pc :=
  s.storeBytes_keeps State.pc (fun _ _ _ => rfl) a bs
@[simp] theorem State.storeBytes_sp (a : Nat) (bs : List Byte) : (s.storeBytes a bs).sp = s.sp :=
  s.storeBytes_keeps State.sp (fun _ _ _ => rfl) a bs
@[simp] theorem State.storeBytes_stk (a : Nat) (bs : List Byte) : (s.storeBytes a bs).stk = s.stk :=
  s.storeBytes_keeps State.stk (fun _ _ _ => rfl) a bs
@[simp] theorem State.storeBytes_dt (a : Nat) (bs : List Byte) : (s.storeBytes a bs).dt = s.dt :=
  s.storeBytes_keeps State.dt (fun _ _ _ => rfl) a bs
@[simp] theorem State.storeBytes_st (a : Nat) (bs : List Byte) : (s.storeBytes a bs).st = s.st :=
  s.storeBytes_keeps State.st (fun _ _ _ => rfl) a bs
@[simp] theorem State.storeBytes_err (a : Nat) (bs : List Byte) : (s.storeBytes a bs).err = s.err :=
  s.storeBytes_keeps State.err (fun _ _ _ => rfl) a bs
@[simp] theorem State.storeBytes_disp (a : Nat) (bs : List Byte) : (s.storeBytes a bs).disp = s.disp :=
  s.storeBytes_keeps State.disp (fun _ _ _ => rfl) a bs
@[simp] theorem State.storeBytes_key (a : Nat) (bs : List Byte) : (s.storeBytes a bs).key = s.key :=
  s.storeBytes_keeps State.key (fun _ _ _ => rfl) a bs
@[simp] theorem State.storeBytes_cfg (a : Nat) (bs : List Byte) : (s.storeBytes a bs).cfg = s.cfg :=
  s.storeBytes_keeps State.cfg (fun _ _ _ => rfl) a bs
@[simp] theorem State.storeBytes_draws (a : Nat) (bs : List Byte) : (s.storeBytes a bs).draws = s.draws :=
  s.storeBytes_keeps State.draws (fun _ _ _ => rfl) a bs
@[simp] theorem State.storeBytes_schedule (a : Nat) (bs : List Byte) : (s.storeBytes a bs).schedule = s.schedule :=
  s.storeBytes_keeps State.schedule (fun _ _ _ => rfl) a bs

/-- Storing bytes keeps the canonical form of memory. -/
theorem State.wf_storeBytes (addr : Nat) (bs : List Byte) (h : Memory.wf s.cfg s.mem = true) :
    Memory.wf s.cfg (s.storeBytes addr bs).mem = true := by
  induction bs generalizing s addr with
  | nil => exact h
  | cons b bs ih =>
    exact ih (s.memWrite addr b) (addr + 1) (Memory.wf_write h (Nat.mod_lt _ (by decide)))

/-- An address that storing bytes does not reach reads as before. -/
theorem State.memRead_storeBytes_other (addr : Nat) (bs : List Byte) (a : Nat)
    (h : ∀ k < bs.length, a % 4096 ≠ (addr + k) % 4096) : (s.storeBytes addr bs).memRead a = s.memRead a := by
  induction bs generalizing s addr with
  | nil => rfl
  | cons b bs ih =>
    rw [State.storeBytes, ih]
    · rw [State.memRead_memWrite, if_neg]
      simpa using h 0 (by simp)
    · intro k hk
      have := h (k + 1) (by simpa using hk)
      rwa [show addr + 1 + k = addr + (k + 1) by omega]

/-- What storing at most 4096 bytes puts at each address: byte `k` at `(addr + k) mod 4096`. -/
theorem State.memRead_storeBytes (addr : Nat) (bs : List Byte) (hl : bs.length ≤ 4096) (k : Nat) (hk : k < bs.length) :
    (s.storeBytes addr bs).memRead (addr + k) = bs[k] := by
  induction bs generalizing s addr k with
  | nil => simp at hk
  | cons b bs ih =>
    rw [State.storeBytes]
    have hl' : bs.length < 4096 := by simpa using hl
    cases k with
    | zero =>
      rw [State.memRead_storeBytes_other, State.memRead_memWrite]
      · simp
      · intro k hk; omega
    | succ k =>
      have := ih (s.memWrite addr b) (addr + 1) (by omega) k (by simpa using hk)
      rw [show addr + (k + 1) = addr + 1 + k by omega, this]
      simp

/-- The bytes of a range, one by one. -/
theorem State.getElem_readBytes (addr n k : Nat) (hk : k < (s.readBytes addr n).length) :
    (s.readBytes addr n)[k] = s.memRead (addr + k) := by
  simp [State.readBytes]

@[simp] theorem State.length_readBytes (addr n : Nat) : (s.readBytes addr n).length = n := by
  simp [State.readBytes]

/-! ### The register range of `FX55` and `FX65` -/

@[simp] theorem State.length_regsUpTo (x : Reg) : (s.regsUpTo x).length = x.val + 1 := by
  have : x.val + 1 ≤ 16 := x.isLt
  simp [State.regsUpTo, this]

theorem State.getElem_regsUpTo (x : Reg) (k : Nat) (hk : k < (s.regsUpTo x).length) :
    (s.regsUpTo x)[k] = s.getV ⟨k, lt_of_lt_of_le (by simpa using hk) (Nat.succ_le_of_lt x.isLt)⟩ := by
  simp [State.regsUpTo, State.getV]

/-- The load loop changes no field but `V`. -/
theorem State.loadFirst_keeps {α : Type} (f : State → α) (hf : ∀ t x b, f (State.setV t x b) = f t) (n : Nat) :
    f (s.loadFirst n) = f s := by
  induction n with
  | zero => rfl
  | succ n ih =>
    simp only [State.loadFirst]
    split
    · rw [hf, ih]
    · exact ih

@[simp] theorem State.loadFirst_i (n : Nat) : (s.loadFirst n).i = s.i := s.loadFirst_keeps State.i (fun _ _ _ => rfl) n
@[simp] theorem State.loadFirst_pc (n : Nat) : (s.loadFirst n).pc = s.pc := s.loadFirst_keeps State.pc (fun _ _ _ => rfl) n
@[simp] theorem State.loadFirst_sp (n : Nat) : (s.loadFirst n).sp = s.sp := s.loadFirst_keeps State.sp (fun _ _ _ => rfl) n
@[simp] theorem State.loadFirst_stk (n : Nat) : (s.loadFirst n).stk = s.stk :=
  s.loadFirst_keeps State.stk (fun _ _ _ => rfl) n
@[simp] theorem State.loadFirst_dt (n : Nat) : (s.loadFirst n).dt = s.dt := s.loadFirst_keeps State.dt (fun _ _ _ => rfl) n
@[simp] theorem State.loadFirst_st (n : Nat) : (s.loadFirst n).st = s.st := s.loadFirst_keeps State.st (fun _ _ _ => rfl) n
@[simp] theorem State.loadFirst_err (n : Nat) : (s.loadFirst n).err = s.err :=
  s.loadFirst_keeps State.err (fun _ _ _ => rfl) n
@[simp] theorem State.loadFirst_mem (n : Nat) : (s.loadFirst n).mem = s.mem :=
  s.loadFirst_keeps State.mem (fun _ _ _ => rfl) n
@[simp] theorem State.loadFirst_disp (n : Nat) : (s.loadFirst n).disp = s.disp :=
  s.loadFirst_keeps State.disp (fun _ _ _ => rfl) n
@[simp] theorem State.loadFirst_key (n : Nat) : (s.loadFirst n).key = s.key :=
  s.loadFirst_keeps State.key (fun _ _ _ => rfl) n
@[simp] theorem State.loadFirst_cfg (n : Nat) : (s.loadFirst n).cfg = s.cfg :=
  s.loadFirst_keeps State.cfg (fun _ _ _ => rfl) n
@[simp] theorem State.loadFirst_draws (n : Nat) : (s.loadFirst n).draws = s.draws :=
  s.loadFirst_keeps State.draws (fun _ _ _ => rfl) n
@[simp] theorem State.loadFirst_schedule (n : Nat) : (s.loadFirst n).schedule = s.schedule :=
  s.loadFirst_keeps State.schedule (fun _ _ _ => rfl) n
@[simp] theorem State.loadFirst_memRead (n a : Nat) : (s.loadFirst n).memRead a = s.memRead a :=
  s.loadFirst_keeps (fun t => t.memRead a) (fun _ _ _ => rfl) n

/-- What the load loop does to the registers: those below `n` hold the byte at their effective address. -/
theorem State.getV_loadFirst (n : Nat) (r : Reg) :
    (s.loadFirst n).getV r = if r.val < n then s.memRead (s.ea r.val) else s.getV r := by
  induction n with
  | zero => simp [State.loadFirst]
  | succ n ih =>
    simp only [State.loadFirst]
    split
    · next h =>
      rw [State.getV_setV, ih]
      by_cases hr : r = ⟨n, h⟩
      · subst hr; simp [State.ea]
      · have : r.val ≠ n := fun e => hr (Fin.ext e)
        rw [if_neg hr]
        by_cases h' : r.val < n
        · rw [if_pos h', if_pos (by omega)]
        · rw [if_neg h', if_neg (by omega)]
    · next h =>
      have := r.isLt
      rw [ih, if_pos (by omega), if_pos (by omega)]

end Sys2Proof.Machine
end

