-- ==== Sys2Proof/Laws/PerInstr.lean ====
section
/-! SUPPORT. The family `EncodeRow`, one lemma per instruction: what the encoder writes carries the bits of that instruction's
row of the opcode table (`30_encoding.md` R58). -/

namespace Sys2Proof.Laws.EncodeRow

/-- The word of a well-formed instruction, under its row's mask, is its row's match. -/
def Statement (i : Instr) : Prop := i.wellFormed = true → encode i &&& (rowOf i).mask = (rowOf i).value

theorem cls : Statement .cls := fun _ => rfl
theorem ret : Statement .ret := fun _ => rfl
theorem jp (nnn : Addr) : Statement (.jp nnn) := fun _ => by simp only [encode, rowOf, wordA_and_mask]; rfl
theorem call (nnn : Addr) : Statement (.call nnn) := fun _ => by simp only [encode, rowOf, wordA_and_mask]; rfl
theorem seImm (x : Reg) (nn : Byte) : Statement (.seImm x nn) := fun _ => by simp only [encode, rowOf, wordI_and_mask]; rfl
theorem sneImm (x : Reg) (nn : Byte) : Statement (.sneImm x nn) := fun _ => by simp only [encode, rowOf, wordI_and_mask]; rfl
theorem seReg (x y : Reg) : Statement (.seReg x y) := fun _ => by simp only [encode, rowOf, wordR_and_mask]; rfl
theorem ldImm (x : Reg) (nn : Byte) : Statement (.ldImm x nn) := fun _ => by simp only [encode, rowOf, wordI_and_mask]; rfl
theorem addImm (x : Reg) (nn : Byte) : Statement (.addImm x nn) := fun _ => by simp only [encode, rowOf, wordI_and_mask]; rfl
theorem ldReg (x y : Reg) : Statement (.ldReg x y) := fun _ => by simp only [encode, rowOf, wordR_and_mask]; rfl
theorem orReg (x y : Reg) : Statement (.orReg x y) := fun _ => by simp only [encode, rowOf, wordR_and_mask]; rfl
theorem andReg (x y : Reg) : Statement (.andReg x y) := fun _ => by simp only [encode, rowOf, wordR_and_mask]; rfl
theorem xorReg (x y : Reg) : Statement (.xorReg x y) := fun _ => by simp only [encode, rowOf, wordR_and_mask]; rfl
theorem addReg (x y : Reg) : Statement (.addReg x y) := fun _ => by simp only [encode, rowOf, wordR_and_mask]; rfl
theorem subReg (x y : Reg) : Statement (.subReg x y) := fun _ => by simp only [encode, rowOf, wordR_and_mask]; rfl
theorem shrReg (x y : Reg) : Statement (.shrReg x y) := fun _ => by simp only [encode, rowOf, wordR_and_mask]; rfl
theorem subnReg (x y : Reg) : Statement (.subnReg x y) := fun _ => by simp only [encode, rowOf, wordR_and_mask]; rfl
theorem shlReg (x y : Reg) : Statement (.shlReg x y) := fun _ => by simp only [encode, rowOf, wordR_and_mask]; rfl
theorem sneReg (x y : Reg) : Statement (.sneReg x y) := fun _ => by simp only [encode, rowOf, wordR_and_mask]; rfl
theorem ldI (nnn : Addr) : Statement (.ldI nnn) := fun _ => by simp only [encode, rowOf, wordA_and_mask]; rfl
theorem jpV0 (nnn : Addr) : Statement (.jpV0 nnn) := fun _ => by simp only [encode, rowOf, wordA_and_mask]; rfl
theorem rnd (x : Reg) (nn : Byte) : Statement (.rnd x nn) := fun _ => by simp only [encode, rowOf, wordI_and_mask]; rfl
theorem drw (x y : Reg) (n : Nat) : Statement (.drw x y n) := fun _ => by simp only [encode, rowOf, wordR_and_major]; rfl
theorem skp (x : Reg) : Statement (.skp x) := fun _ => by simp only [encode, rowOf, wordX_and_mask]; rfl
theorem sknp (x : Reg) : Statement (.sknp x) := fun _ => by simp only [encode, rowOf, wordX_and_mask]; rfl
theorem ldVxDT (x : Reg) : Statement (.ldVxDT x) := fun _ => by simp only [encode, rowOf, wordX_and_mask]; rfl
theorem ldVxK (x : Reg) : Statement (.ldVxK x) := fun _ => by simp only [encode, rowOf, wordX_and_mask]; rfl
theorem ldDTVx (x : Reg) : Statement (.ldDTVx x) := fun _ => by simp only [encode, rowOf, wordX_and_mask]; rfl
theorem ldSTVx (x : Reg) : Statement (.ldSTVx x) := fun _ => by simp only [encode, rowOf, wordX_and_mask]; rfl
theorem addI (x : Reg) : Statement (.addI x) := fun _ => by simp only [encode, rowOf, wordX_and_mask]; rfl
theorem ldF (x : Reg) : Statement (.ldF x) := fun _ => by simp only [encode, rowOf, wordX_and_mask]; rfl
theorem ldB (x : Reg) : Statement (.ldB x) := fun _ => by simp only [encode, rowOf, wordX_and_mask]; rfl
theorem storeRegs (x : Reg) : Statement (.storeRegs x) := fun _ => by simp only [encode, rowOf, wordX_and_mask]; rfl
theorem loadRegs (x : Reg) : Statement (.loadRegs x) := fun _ => by simp only [encode, rowOf, wordX_and_mask]; rfl

end Sys2Proof.Laws.EncodeRow
end

