-- ==== Sys2Proof/Laws/Screen.lean ====
section
/-! SUPPORT. The laws of the display buffer: what one inverted cell does, and what a pixel, a row and
all the rows of a draw do, cell by cell. -/

namespace Sys2Proof.Machine

/-- Inverting one cell inverts it and leaves every other cell alone. -/
theorem Display.pixel_flip (d : Display) (px qx : Fin 64) (py qy : Fin 32) :
    (d.flip px py).pixel qx qy = if qx = px ∧ qy = py then !d.pixel px py else d.pixel qx qy := by
  simp only [Display.pixel, Display.flip, Fin.getElem_fin, Vector.getElem_set]
  by_cases hy : qy = py
  · subst hy
    by_cases hx : qx = px
    · simp [hx]
    · have : (px : Nat) ≠ qx := fun h => hx (Fin.ext h.symm)
      simp [hx, this]
  · have : (py : Nat) ≠ qy := fun h => hy (Fin.ext h.symm)
    simp [hy, this]

@[simp] theorem Display.pixel_dark (px : Fin 64) (py : Fin 32) : Display.pixel Display.dark px py = false := by
  simp [Display.pixel, Display.dark]

/-- Two displays with the same cells are equal. -/
theorem Display.ext_pixel {d e : Display} (h : ∀ px py, d.pixel px py = e.pixel px py) : d = e := by
  refine Vector.ext fun y hy => Vector.ext fun x hx => ?_
  exact h ⟨x, hx⟩ ⟨y, hy⟩

/-- One pixel of a draw, cell by cell: a 1 bit inverts the cell it falls on (R112). -/
theorem Display.pixel_drawPixel (b : Byte) (x0 y0 r : Nat) (acc : Display × Bool) (c : Nat) (qx : Fin 64) (qy : Fin 32) :
    (Display.drawPixel b x0 y0 r acc c).1.pixel qx qy =
      ((decide (qx = Fin.ofNat 64 (x0 + c) ∧ qy = Fin.ofNat 32 (y0 + r)) && b.getLsbD (7 - c)) ^^ acc.1.pixel qx qy) := by
  simp only [Display.drawPixel]
  by_cases hb : b.getLsbD (7 - c)
  · rw [if_pos hb, Display.pixel_flip]
    split
    · next h => simp [h, hb]
    · next h => rw [decide_eq_false h]; simp
  · rw [if_neg hb]
    simp [hb]

/-- The collision after one pixel of a draw: the one before, or a lit cell under a 1 bit (R112). -/
theorem Display.collision_drawPixel (b : Byte) (x0 y0 r : Nat) (acc : Display × Bool) (c : Nat) :
    (Display.drawPixel b x0 y0 r acc c).2 =
      (acc.2 || (b.getLsbD (7 - c) && acc.1.pixel (Fin.ofNat 64 (x0 + c)) (Fin.ofNat 32 (y0 + r)))) := by
  simp only [Display.drawPixel]
  by_cases hb : b.getLsbD (7 - c)
  · rw [if_pos hb]; simp [hb]
  · rw [if_neg hb]; simp [hb]

/-- A sprite row with the byte `b` covers column `px` by one of its first `k` pixels, the row starting at column `x0`. -/
def Display.rowCovers (b : Byte) (x0 k : Nat) (px : Fin 64) : Prop :=
  ∃ c, c < k ∧ px = Fin.ofNat 64 (x0 + c) ∧ b.getLsbD (7 - c) = true

/-- The first `k` pixels of a row, as one: the cells under a 1 bit are inverted, and no cell is met twice, so the collision is
read off the display before the row (R112). -/
theorem Display.drawPixels_spec (b : Byte) (x0 y0 r : Nat) (acc : Display × Bool) (k : Nat) (hk : k ≤ 8) :
    let out := (List.range k).foldl (Display.drawPixel b x0 y0 r) acc
    (∀ qx qy, (out.1.pixel qx qy = acc.1.pixel qx qy) ↔ ¬ (qy = Fin.ofNat 32 (y0 + r) ∧ Display.rowCovers b x0 k qx)) ∧
    (out.2 = true ↔ acc.2 = true ∨ ∃ qx, Display.rowCovers b x0 k qx ∧ acc.1.pixel qx (Fin.ofNat 32 (y0 + r)) = true) := by
  induction k with
  | zero => simp [Display.rowCovers]
  | succ k ih =>
    obtain ⟨ih1, ih2⟩ := ih (by omega)
    have split : ∀ qx, Display.rowCovers b x0 (k + 1) qx ↔
        Display.rowCovers b x0 k qx ∨ (qx = Fin.ofNat 64 (x0 + k) ∧ b.getLsbD (7 - k) = true) := by
      intro qx
      constructor
      · rintro ⟨c, hc, h⟩
        rcases Nat.lt_succ_iff_lt_or_eq.1 hc with hc | rfl
        · exact .inl ⟨c, hc, h⟩
        · exact .inr h
      · rintro (⟨c, hc, h⟩ | h)
        · exact ⟨c, by omega, h⟩
        · exact ⟨k, by omega, h⟩
    have fresh : ¬ Display.rowCovers b x0 k (Fin.ofNat 64 (x0 + k)) := by
      rintro ⟨c, hc, h, -⟩
      have := congrArg Fin.val h
      simp only [Fin.ofNat] at this
      omega
    rw [List.range_succ, List.foldl_append]
    simp only [List.foldl_cons, List.foldl_nil]
    generalize (List.range k).foldl (Display.drawPixel b x0 y0 r) acc = mid at ih1 ih2
    have hmid := (ih1 (Fin.ofNat 64 (x0 + k)) (Fin.ofNat 32 (y0 + r))).2 fun h => fresh h.2
    constructor
    · intro qx qy
      rw [Display.pixel_drawPixel, split]
      by_cases hq : (qx = Fin.ofNat 64 (x0 + k) ∧ qy = Fin.ofNat 32 (y0 + r)) ∧ b.getLsbD (7 - k) = true
      · obtain ⟨⟨rfl, rfl⟩, hb⟩ := hq
        simp [hb]
        exact hmid
      · have : (decide (qx = Fin.ofNat 64 (x0 + k) ∧ qy = Fin.ofNat 32 (y0 + r)) && b.getLsbD (7 - k)) = false := by
          simpa using hq
        rw [this, Bool.false_xor, ih1]
        tauto
    · rw [Display.collision_drawPixel, Bool.or_eq_true, ih2, Bool.and_eq_true, hmid]
      constructor
      · rintro ((h | ⟨qx, h, h'⟩) | ⟨h, h'⟩)
        · exact .inl h
        · exact .inr ⟨qx, (split _).2 (.inl h), h'⟩
        · exact .inr ⟨_, (split _).2 (.inr ⟨rfl, h⟩), h'⟩
      · rintro (h | ⟨qx, h, h'⟩)
        · exact .inl (.inl h)
        · rcases (split _).1 h with hc | ⟨rfl, hc⟩
          · exact .inl (.inr ⟨qx, hc, h'⟩)
          · exact .inr ⟨hc, h'⟩

/-- The rows from row `r` on cover a cell. -/
def Display.rowsCover (x0 y0 r : Nat) (bs : List Byte) (px : Fin 64) (py : Fin 32) : Prop :=
  ∃ k, ∃ h : k < bs.length, py = Fin.ofNat 32 (y0 + (r + k)) ∧ Display.rowCovers bs[k] x0 8 px

/-- Rows from row `r` on, as one; with at most 32 rows no cell is met twice (R112). -/
theorem Display.drawRows_spec (x0 y0 r : Nat) (bs : List Byte) (acc : Display × Bool) (hl : r + bs.length ≤ 32) :
    (∀ qx qy, ((Display.drawRows x0 y0 r bs acc).1.pixel qx qy = acc.1.pixel qx qy) ↔ ¬ Display.rowsCover x0 y0 r bs qx qy) ∧
    ((Display.drawRows x0 y0 r bs acc).2 = true ↔
      acc.2 = true ∨ ∃ qx qy, Display.rowsCover x0 y0 r bs qx qy ∧ acc.1.pixel qx qy = true) := by
  induction bs generalizing r acc with
  | nil => simp [Display.drawRows, Display.rowsCover]
  | cons b bs ih =>
    have hl' : r + 1 + bs.length ≤ 32 := by simpa [Nat.add_assoc, Nat.add_comm] using hl
    obtain ⟨ih1, ih2⟩ := ih (r + 1) (Display.drawRow b x0 y0 r acc) hl'
    obtain ⟨p1, p2⟩ := Display.drawPixels_spec b x0 y0 r acc 8 (Nat.le_refl 8)
    have split : ∀ qx qy, Display.rowsCover x0 y0 r (b :: bs) qx qy ↔
        (qy = Fin.ofNat 32 (y0 + r) ∧ Display.rowCovers b x0 8 qx) ∨ Display.rowsCover x0 y0 (r + 1) bs qx qy := by
      intro qx qy
      constructor
      · rintro ⟨k, hk, h, h'⟩
        cases k with
        | zero => exact .inl ⟨h, h'⟩
        | succ k => exact .inr ⟨k, by simpa using hk, by rw [h]; congr 1; omega, h'⟩
      · rintro (⟨h, h'⟩ | ⟨k, hk, h, h'⟩)
        · exact ⟨0, by simp, h, h'⟩
        · exact ⟨k + 1, by simpa using hk, by rw [h]; congr 1; omega, h'⟩
    have fresh : ∀ qx qy, Display.rowsCover x0 y0 (r + 1) bs qx qy → qy ≠ Fin.ofNat 32 (y0 + r) := by
      rintro qx qy ⟨k, hk, h, -⟩ h'
      have := congrArg Fin.val (h.symm.trans h')
      simp only [Fin.ofNat] at this
      omega
    have p1' : ∀ qx qy, ((Display.drawRow b x0 y0 r acc).1.pixel qx qy = acc.1.pixel qx qy) ↔ _ := p1
    have p2' : (Display.drawRow b x0 y0 r acc).2 = true ↔ _ := p2
    simp only [Display.drawRows]
    constructor
    · intro qx qy
      rw [split]
      by_cases h2 : Display.rowsCover x0 y0 (r + 1) bs qx qy
      · have h3 := (p1' qx qy).2 fun h => fresh qx qy h2 h.1
        rw [← h3, ih1]
        simp [h2]
      · rw [(ih1 qx qy).2 h2, p1']
        simp [h2]
    · rw [ih2, p2']
      constructor
      · rintro ((h | ⟨qx, h, h'⟩) | ⟨qx, qy, h, h'⟩)
        · exact .inl h
        · exact .inr ⟨qx, _, (split _ _).2 (.inl ⟨rfl, h⟩), h'⟩
        · refine .inr ⟨qx, qy, (split _ _).2 (.inr h), ?_⟩
          rwa [← (p1' qx qy).2 fun e => fresh qx qy h e.1]
      · rintro (h | ⟨qx, qy, h, h'⟩)
        · exact .inl (.inl h)
        · rcases (split _ _).1 h with ⟨rfl, hc⟩ | hc
          · exact .inl (.inr ⟨qx, hc, h'⟩)
          · refine .inr ⟨qx, qy, hc, ?_⟩
            rwa [(p1' qx qy).2 fun e => fresh qx qy hc e.1]

end Sys2Proof.Machine
end

