-- ==== Sys2Proof/Tests/Slice0.lean ====
section
/-! SUPPORT. Tests of the model. Expected results are the vectors of `95_test_vectors.md`, cited by part and number, or hand
calculation from the rule cited. Then one witness for every obligation that has hypotheses: a concrete state and operands
that meet them together. -/

namespace Sys2Proof.Tests

open Sys2Proof Sys2Proof.Machine Host

/-! ### Helpers -/

/-- Whether an outcome is a next state that passes a check. -/
def answers (o : Outcome State Fault Refusal) (p : State → Bool) : Bool :=
  match o with
  | .next t => p t
  | .fault _ | .refused _ => false

/-- What a check that passed shows. -/
theorem answers_next {o : Outcome State Fault Refusal} {p : State → Bool} (h : answers o p = true) :
    ∃ t, o = .next t ∧ p t = true := by
  cases o with
  | next t => exact ⟨t, rfl, h⟩
  | fault r => cases r
  | refused r => cases h

/-- A state with some registers set. -/
def withRegs (s : State) : List (Reg × Byte) → State
  | [] => s
  | (x, b) :: l => withRegs (s.setV x b) l

/-- The reset state with some registers set and an instruction word where the next step fetches it. -/
def atReset (w : Nat) (regs : List (Reg × Byte)) : State := (withRegs State.reset regs).withFetchWord 16 w

/-- One parameter of the machine set: the shifts' source. -/
def shiftingVY (s : State) : State := { s with cfg := { s.cfg with shiftUsesVY := true } }

/-- One parameter of the machine set: the flag of `FX1E`. -/
def indexFlagging (s : State) : State := { s with cfg := { s.cfg with fx1eSetsVF := true } }

/-- Some cells of a dark display lit. -/
def lit (cells : List (Fin 64 × Fin 32)) : Display := cells.foldl (fun d c => d.flip c.1 c.2) Display.dark

/-- Some keys down. -/
def keysDown (ks : List (Fin 16)) : Keypad := ks.foldl (fun k (j : Fin 16) => k.set j true) (Vector.replicate 16 false)

/-! ### WellFormed -/

theorem test_wellFormed_refuses_sixteen_rows : (Instr.drw 0 0 16).wellFormed = false := by decide
theorem test_wellFormed_accepts_fifteen_rows : (Instr.drw 15 15 15).wellFormed = true := by decide

/-! ### Decode: every constructor, by a word written out from R47 and R58; the illegal classes of R52 -/

theorem test_decode_cls : decodeTableWord 16 0x00E0 = some .cls := by decide
theorem test_decode_ret : decodeTableWord 16 0x00EE = some .ret := by decide
theorem test_decode_jp : decodeTableWord 16 0x1ABC = some (.jp 0xABC) := by decide
theorem test_decode_call : decodeTableWord 16 0x2ABC = some (.call 0xABC) := by decide
theorem test_decode_seImm : decodeTableWord 16 0x31A5 = some (.seImm 1 0xA5) := by decide
theorem test_decode_sneImm : decodeTableWord 16 0x4EA5 = some (.sneImm 14 0xA5) := by decide
theorem test_decode_seReg : decodeTableWord 16 0x5120 = some (.seReg 1 2) := by decide
theorem test_decode_ldImm : decodeTableWord 16 0x6A55 = some (.ldImm 10 0x55) := by decide
theorem test_decode_addImm : decodeTableWord 16 0x71FF = some (.addImm 1 0xFF) := by decide
theorem test_decode_ldReg : decodeTableWord 16 0x8120 = some (.ldReg 1 2) := by decide
theorem test_decode_orReg : decodeTableWord 16 0x8AB1 = some (.orReg 10 11) := by decide
theorem test_decode_andReg : decodeTableWord 16 0x8AB2 = some (.andReg 10 11) := by decide
theorem test_decode_xorReg : decodeTableWord 16 0x8AB3 = some (.xorReg 10 11) := by decide
theorem test_decode_addReg : decodeTableWord 16 0x8124 = some (.addReg 1 2) := by decide
theorem test_decode_subReg : decodeTableWord 16 0x8AB5 = some (.subReg 10 11) := by decide
theorem test_decode_shrReg : decodeTableWord 16 0x8AB6 = some (.shrReg 10 11) := by decide
theorem test_decode_subnReg : decodeTableWord 16 0x8127 = some (.subnReg 1 2) := by decide
theorem test_decode_shlReg : decodeTableWord 16 0x812E = some (.shlReg 1 2) := by decide
theorem test_decode_sneReg : decodeTableWord 16 0x9120 = some (.sneReg 1 2) := by decide
theorem test_decode_ldI : decodeTableWord 16 0xA300 = some (.ldI 0x300) := by decide
theorem test_decode_jpV0 : decodeTableWord 16 0xB2FF = some (.jpV0 0x2FF) := by decide
theorem test_decode_rnd : decodeTableWord 16 0xC30F = some (.rnd 3 0x0F) := by decide
theorem test_decode_drw : decodeTableWord 16 0xD125 = some (.drw 1 2 5) := by decide
theorem test_decode_skp : decodeTableWord 16 0xE09E = some (.skp 0) := by decide
theorem test_decode_sknp : decodeTableWord 16 0xE1A1 = some (.sknp 1) := by decide
theorem test_decode_ldVxDT : decodeTableWord 16 0xF207 = some (.ldVxDT 2) := by decide
theorem test_decode_ldVxK : decodeTableWord 16 0xF10A = some (.ldVxK 1) := by decide
theorem test_decode_ldDTVx : decodeTableWord 16 0xF015 = some (.ldDTVx 0) := by decide
theorem test_decode_ldSTVx : decodeTableWord 16 0xF318 = some (.ldSTVx 3) := by decide
theorem test_decode_addI : decodeTableWord 16 0xF21E = some (.addI 2) := by decide
theorem test_decode_ldF : decodeTableWord 16 0xF329 = some (.ldF 3) := by decide
theorem test_decode_ldB : decodeTableWord 16 0xF333 = some (.ldB 3) := by decide
theorem test_decode_storeRegs : decodeTableWord 16 0xFF55 = some (.storeRegs 15) := by decide
theorem test_decode_loadRegs : decodeTableWord 16 0xF465 = some (.loadRegs 4) := by decide

theorem test_decode_illegal_major0 : decode 0x0000 = .error .major0 ∧ decode 0x00DF = .error .major0 ∧ decode 0x00E1 =
    .error .major0 ∧ decode 0x00EF = .error .major0 ∧ decode 0x0FFF = .error .major0 := by decide
theorem test_decode_illegal_major5 : decode 0x5001 = .error .major5 ∧ decode 0x5123 = .error .major5 ∧ decode 0x5FFF =
    .error .major5 := by decide
theorem test_decode_illegal_major8 : decode 0x8008 = .error .major8 ∧ decode 0x812D = .error .major8 ∧ decode 0x812F =
    .error .major8 := by decide
theorem test_decode_illegal_major9 : decode 0x9001 = .error .major9 ∧ decode 0x9121 = .error .major9 ∧ decode 0x9FFF =
    .error .major9 := by decide
theorem test_decode_illegal_majorE : decode 0xE09D = .error .majorE ∧ decode 0xE09F = .error .majorE ∧ decode 0xEFA0 =
    .error .majorE ∧ decode 0xEFA2 = .error .majorE := by decide
theorem test_decode_illegal_majorF : decode 0xF000 = .error .majorF ∧ decode 0xF008 = .error .majorF ∧ decode 0xF056 =
    .error .majorF ∧ decode 0xF175 = .error .majorF ∧ decode 0xFFFF = .error .majorF := by decide
/-- The encoder on the sample words of A1 and B1. -/
theorem test_encode : encode (.addReg 1 2) = 0x8124 ∧ encode (.jp 0x234) = 0x1234 ∧ encode (.drw 1 2 5) = 0xD125 ∧
    encode (.sknp 1) = 0xE1A1 ∧ encode (.storeRegs 2) = 0xF255 ∧ encode (.ldImm 10 0x55) = 0x6A55 := by decide

/-! ### One step of each instruction -/

/-- B5/1. -/
theorem test_cls : answers (step ((State.reset.setDisp (lit [(0, 0), (63, 31)])).withFetchWord 16 0x00E0))
    (fun t => !t.disp.pixel 0 0 && !t.disp.pixel 63 31 && t.pc == 0x202) = true := by decide
/-- B2/6. -/
theorem test_ret : answers (step (((State.reset.push 0x206).setPc 0x20C).withFetchWord 16 0x00EE))
    (fun t => t.sp == 0 && t.pc == 0x206 && t.stkAt 0 == 0x206) = true := by decide
/-- B2/5. -/
theorem test_ret_underflow : answers (step (atReset 0x00EE []))
    (fun t => t.err == some .stackUnderflow && t.sp == 0 && t.pc == 0x200) = true := by decide
/-- B2/1. -/
theorem test_jp : answers (step ((withRegs (State.reset.setPc 0x20A) []).withFetchWord 16 0x1204))
    (fun t => t.pc == 0x204) = true := by decide
/-- B2/2: the return address wraps. -/
theorem test_call : answers (step ((withRegs (State.reset.setPc 0xFFE) []).withFetchWord 16 0x2300))
    (fun t => t.stkAt 0 == 0 && t.sp == 1 && t.pc == 0x300) = true := by decide
/-- B2/4. -/
theorem test_call_overflow : answers (step ({ State.reset with sp := 16 }.withFetchWord 16 0x2300))
    (fun t => t.err == some .stackOverflow && t.sp == 16 && t.pc == 0x200) = true := by decide
/-- B2/3. -/
theorem test_call_last : answers (step ({ State.reset with sp := 15 }.withFetchWord 16 0x2300))
    (fun t => t.err == none && t.sp == 16 && t.stkAt 15 == 0x202 && t.pc == 0x300) = true := by decide
/-- B2/9: the skip wraps. -/
theorem test_seImm : answers (step ((withRegs (State.reset.setPc 0xFFC) [(1, 0x42)]).withFetchWord 16 0x3142))
    (fun t => t.pc == 0) = true := by decide
/-- B2/8. -/
theorem test_seImm_differs : answers (step (atReset 0x3142 [(1, 0x43)])) (fun t => t.pc == 0x202) = true := by decide
/-- B2/12. -/
theorem test_sneImm : answers (step (atReset 0x4142 [(1, 0x43)])) (fun t => t.pc == 0x204) = true := by decide
/-- B2/11. -/
theorem test_sneImm_equal : answers (step (atReset 0x4142 [(1, 0x42)])) (fun t => t.pc == 0x202) = true := by decide
/-- B2/13. -/
theorem test_seReg_itself : answers (step (atReset 0x5330 [(3, 9)])) (fun t => t.pc == 0x204) = true := by decide
/-- By R71. -/
theorem test_seReg_differs : answers (step (atReset 0x5120 [(1, 9)])) (fun t => t.pc == 0x202) = true := by decide
/-- B2/15. -/
theorem test_sneReg : answers (step ((withRegs (State.reset.setPc 0x210) [(3, 1), (4, 2)]).withFetchWord 16 0x9340))
    (fun t => t.pc == 0x214) = true := by decide
/-- B2/14. -/
theorem test_sneReg_itself : answers (step (atReset 0x9330 [(3, 9)])) (fun t => t.pc == 0x202) = true := by decide
/-- B2/17. -/
theorem test_jpV0_wraps : answers (step (atReset 0xBFFF [(0, 2)])) (fun t => t.pc == 0x001) = true := by decide
/-- B2/18. -/
theorem test_jpV0_is_always_v0 : answers (step (atReset 0xB2FF [(0, 0xFF)]))
    (fun t => t.pc == 0x3FE) = true := by decide
/-- B3/1. -/
theorem test_ldImm : answers (step (atReset 0x60EA []))
    (fun t => t.getV 0 == 0xEA && t.pc == 0x202) = true := by decide
/-- B3/2. -/
theorem test_addImm_to_flag : answers (step (atReset 0x7F02 [(15, 0xFF)]))
    (fun t => t.getV 15 == 1) = true := by decide
/-- A2. -/
theorem test_addImm_leaves_flag : answers (step (atReset 0x7302 [(3, 0xFF), (15, 7)]))
    (fun t => t.getV 3 == 1 && t.getV 15 == 7) = true := by decide
/-- B3/4. -/
theorem test_ldReg : answers (step (atReset 0x8120 [(2, 0x3C), (15, 9)]))
    (fun t => t.getV 1 == 0x3C && t.getV 15 == 9 && t.getV 2 == 0x3C) = true := by decide
/-- B3/5. -/
theorem test_orReg : answers (step (atReset 0x8121 [(1, 0xF0), (2, 0x0F), (15, 0x55)]))
    (fun t => t.getV 1 == 0xFF && t.getV 15 == 0x55) = true := by decide
/-- B3/6. -/
theorem test_andReg : answers (step (atReset 0x8122 [(1, 0xF3), (2, 0x3F), (15, 5)]))
    (fun t => t.getV 1 == 0x33 && t.getV 15 == 5) = true := by decide
/-- B3/7. -/
theorem test_xorReg : answers (step (atReset 0x8123 [(1, 0xFF), (2, 0x0F), (15, 5)]))
    (fun t => t.getV 1 == 0xF0 && t.getV 15 == 5) = true := by decide
/-- B3/8. -/
theorem test_xorReg_itself : answers (step (atReset 0x8113 [(1, 0x5A)])) (fun t => t.getV 1 == 0) = true := by decide
/-- B3/9. -/
theorem test_addReg_to_flag : answers (step (atReset 0x8F14 [(15, 0xF0), (1, 0x20)]))
    (fun t => t.getV 15 == 1) = true := by decide
/-- B3/10. -/
theorem test_addReg_from_flag : answers (step (atReset 0x81F4 [(1, 1), (15, 0xFF)]))
    (fun t => t.getV 1 == 0 && t.getV 15 == 1) = true := by decide
/-- A4. -/
theorem test_subReg_borrows : answers (step (atReset 0x8125 [(1, 3), (2, 5)]))
    (fun t => t.getV 1 == 0xFE && t.getV 15 == 0) = true := by decide
/-- B3/14. -/
theorem test_subReg_to_flag : answers (step (atReset 0x8FF5 [(15, 0x77)]))
    (fun t => t.getV 15 == 1) = true := by decide
/-- B3/17. -/
theorem test_shrReg : answers (step (atReset 0x8126 [(1, 5), (2, 0xF0)]))
    (fun t => t.getV 1 == 2 && t.getV 15 == 1 && t.getV 2 == 0xF0) = true := by decide
/-- B3/18. -/
theorem test_shrReg_of_vy : answers (step (shiftingVY (atReset 0x8126 [(1, 5), (2, 0xF0)])))
    (fun t => t.getV 1 == 0x78 && t.getV 15 == 0 && t.getV 2 == 0xF0) = true := by decide
/-- B3/15. -/
theorem test_subnReg : answers (step (atReset 0x8127 [(2, 1)]))
    (fun t => t.getV 1 == 1 && t.getV 15 == 1) = true := by decide
/-- B3/16. -/
theorem test_subnReg_borrows : answers (step (atReset 0x8127 [(1, 5), (2, 3)]))
    (fun t => t.getV 1 == 0xFE && t.getV 15 == 0) = true := by decide
/-- B3/22. -/
theorem test_shlReg : answers (step (atReset 0x812E [(1, 0x81)]))
    (fun t => t.getV 1 == 2 && t.getV 15 == 1) = true := by decide
/-- B3/23. -/
theorem test_shlReg_of_vy : answers (step (shiftingVY (atReset 0x812E [(1, 5), (2, 0xF0)])))
    (fun t => t.getV 1 == 0xE0 && t.getV 15 == 1) = true := by decide
/-- B4/1. -/
theorem test_ldI : answers (step (atReset 0xA300 [])) (fun t => t.i == 0x300 && t.pc == 0x202) = true := by decide
/-- B3/25, the random byte given; the step takes the byte of its draw from `Config.randomByte`. -/
theorem test_rnd_mask : (State.reset.loadRandom 3 0x0F 0xA7).getV 3 = 0x07 := by decide
theorem test_rnd_counts : answers (step (atReset 0xC3FF [])) (fun t => t.draws == 1 && t.pc == 0x202) = true := by decide
/-- B4/3. -/
theorem test_addI_wraps : answers (step ((withRegs (State.reset.setI 0xFFF) [(2, 2), (15, 9)]).withFetchWord 16 0xF21E))
    (fun t => t.i == 1 && t.getV 15 == 9) = true := by decide
/-- B4/6. -/
theorem test_addI_flags : answers (step (indexFlagging ((withRegs (State.reset.setI 0xF10) [(15, 0xF0)]).withFetchWord 16 0xFF1E)))
    (fun t => t.i == 0 && t.getV 15 == 1) = true := by decide
/-- B4/10: the low nibble only. -/
theorem test_ldF : answers (step (atReset 0xF329 [(3, 0x1A)])) (fun t => t.i == 0x082) = true := by decide
/-- B4/15. -/
theorem test_ldB_wraps : answers (step ((withRegs (State.reset.setI 0xFFE) [(3, 255)]).withFetchWord 16 0xF333))
    (fun t => t.memRead 0xFFE == 2 && t.memRead 0xFFF == 5 && t.memRead 0 == 5 && t.i == 0xFFE) = true := by decide
/-- B4/16. -/
theorem test_storeRegs_wraps : answers (step ((withRegs (State.reset.setI 0xFFE) [(0, 0xA0), (1, 0xA1), (2, 0xA2), (3, 0xA3), (4, 0xA4)]).withFetchWord 16 0xF355))
    (fun t => t.memRead 0xFFE == 0xA0 && t.memRead 0xFFF == 0xA1 && t.memRead 0 == 0xA2 && t.memRead 1 == 0xA3 &&
      t.memRead 2 == 0 && t.i == 0xFFE) = true := by decide
/-- B4/19: glyph 0 of the font. -/
theorem test_loadRegs : answers (step ((withRegs (State.reset.setI 0x050) [(5, 0x99)]).withFetchWord 16 0xF465))
    (fun t => t.getV 0 == 0xF0 && t.getV 1 == 0x90 && t.getV 4 == 0xF0 && t.getV 5 == 0x99 && t.i == 0x050) = true := by decide
/-- B5/5. -/
theorem test_drw_collides : answers (step ((((State.reset.setI 0x300).memWrite 0x300 0xF0).setDisp (lit [(1, 0), (6, 0)])).withFetchWord 16 0xD121))
    (fun t => t.disp.pixel 0 0 && !t.disp.pixel 1 0 && t.disp.pixel 2 0 && t.disp.pixel 3 0 && !t.disp.pixel 4 0 &&
      t.disp.pixel 6 0 && t.getV 15 == 1) = true := by decide
/-- A7. -/
theorem test_drw_wraps : answers (step ((withRegs ((State.reset.setI 0x300).storeBytes 0x300 [0xC0, 0xC0]) [(1, 63), (2, 31)]).withFetchWord 16 0xD122))
    (fun t => t.disp.pixel 63 31 && t.disp.pixel 0 31 && t.disp.pixel 63 0 && t.disp.pixel 0 0 && !t.disp.pixel 62 31 &&
      !t.disp.pixel 1 0 && t.getV 15 == 0) = true := by decide
/-- B6/3: the low nibble only. -/
theorem test_skp : answers (step ((State.setKeys (State.reset.setV 1 0x17) (keysDown [7])).withFetchWord 16 0xE19E))
    (fun t => t.pc == 0x204) = true := by decide
/-- B6/2. -/
theorem test_skp_up : answers (step (atReset 0xE19E [(1, 7)])) (fun t => t.pc == 0x202) = true := by decide
/-- B6/4. -/
theorem test_sknp : answers (step ((State.setKeys (State.reset.setV 1 0x17) (keysDown [7])).withFetchWord 16 0xE1A1))
    (fun t => t.pc == 0x202) = true := by decide
/-- B6/5. -/
theorem test_sknp_up : answers (step (atReset 0xE1A1 [(1, 7)])) (fun t => t.pc == 0x204) = true := by decide
/-- B6/6. -/
theorem test_ldVxDT : answers (step ((State.reset.setDT 0x2A).withFetchWord 16 0xF207))
    (fun t => t.getV 2 == 0x2A && t.dt == 0x2A) = true := by decide
/-- B6/8. -/
theorem test_ldVxK : answers (step ((State.reset.setKeys (keysDown [9, 3])).withFetchWord 16 0xF50A))
    (fun t => t.getV 5 == 3 && t.pc == 0x202) = true := by decide
/-- B6/9. -/
theorem test_ldVxK_waits : answers (step (atReset 0xF50A [(5, 0x44)]))
    (fun t => t.getV 5 == 0x44 && t.pc == 0x200) = true := by decide
/-- A8. -/
theorem test_ldDTVx : answers (step (atReset 0xF015 [(0, 5)])) (fun t => t.dt == 5 && t.st == 0) = true := by decide
/-- B6/7. -/
theorem test_ldSTVx : answers (step (atReset 0xF318 [(3, 0x1E)]))
    (fun t => t.st == 0x1E && t.dt == 0 && t.tone) = true := by decide

/-! ### The cycle and the host's events -/

/-- A10. -/
theorem test_illegal_word : answers (step (atReset 0x5123 [(1, 7), (2, 7)]))
    (fun t => t == (atReset 0x5123 [(1, 7), (2, 7)]).raise .decodeError) = true := by decide
/-- B6/13. -/
theorem test_halted : answers (step (State.reset.raise .decodeError))
    (fun t => t == State.reset.raise .decodeError) = true := by decide
/-- B1: the word lies across the end of memory. -/
theorem test_fetch_wraps : answers (step (((State.reset.memWrite 0xFFF 0x12).memWrite 0x000 0x34).setPc 0xFFF))
    (fun t => t.pc == 0x234) = true := by decide
/-- B7/3: with nothing loaded the first word is Illegal. -/
theorem test_reset_runs_no_program : answers (step State.reset)
    (fun t => t.err == some .decodeError && t.pc == 0x200) = true := by decide
/-- A9, A10: what the step reports. -/
theorem test_reports : stepReport (atReset 0xF10A []) = .waitingKey ∧
    stepReport (atReset 0x5123 []) = .error .decodeError 0x200 0x5123 ∧
    stepReport (State.reset.raise .stackOverflow) = .halted ∧ stepReport (atReset 0x00E0 []) = .ok := by decide
/-- B6/11 and B6/12. -/
theorem test_tick : ({ State.reset with st := 255 }.tick).st = 254 ∧ ({ State.reset with st := 255 }.tick).dt = 0 ∧
    (((State.reset.setDT 3).raise .stackUnderflow).tick).dt = 3 := by decide
/-- A scheduled event comes before the next `Step` (log entry 6). -/
theorem test_scheduled_tick : answers (step { State.reset with dt := 1, schedule := [.tick] })
    (fun t => t.dt == 0 && t.schedule == [] && t.pc == 0x200) = true := by decide
/-- B7/4. -/
theorem test_load : (State.reset.load [0x12, 0x00, 0xAB]).readBytes 0x200 4 = [0x12, 0x00, 0xAB, 0x00] := by decide
/-- B7/2. -/
theorem test_load_too_large : loadReport (List.replicate 3585 0) = .romTooLarge 3585 := by
  rw [loadReport, List.length_replicate]; rfl
/-- B7/5, from a state with everything else in it. -/
theorem test_reset : answers (hostEvent .reset ((withRegs (State.reset.storeBytes 0x050 [1, 2, 3]) [(1, 7)]).raise .decodeError))
    (fun t => t == State.reset && t.readBytes 0x050 5 == [0xF0, 0x90, 0x90, 0x90, 0xF0] &&
      t.readBytes 0x09B 6 == [0xF0, 0x80, 0xF0, 0x80, 0x80, 0x00]) = true := by decide
/-- R130's codes. -/
theorem test_codes : errCode none = 0 ∧ errCode (some .stackUnderflow) = 3 ∧ loadCode (.romTooLarge 4000) = 4 := by decide

/-! ### Witnesses: the hypotheses of each obligation met together -/

theorem witness_DecodeInvertsEncode : (Instr.drw 1 2 15).wellFormed = true := by decide
theorem witness_EncodeInvertsDecode : decode 0xD12F = .ok (.drw 1 2 15) := by decide
theorem witness_IllegalWordsAreExactlyTheTable : decode 0x00E1 = .error .major0 ∧ decode 0x00E0 = .ok .cls := by decide
theorem witness_DecoderAgreesWithTheOpcodeTable : decode 0x812E = .ok (.shlReg 1 2) ∧
    rowOf (.shlReg 0 0) ∈ opcodeTable ∧ (0x812E : OpWord) &&& (rowOf (.shlReg 0 0)).mask = (rowOf (.shlReg 0 0)).value := by
  decide
theorem witness_StepRunsTheDecodedInstruction :
    (atReset 0x6A55 []).schedule = [] ∧ (atReset 0x6A55 []).err = none ∧
    decode (wordOfBytes ((atReset 0x6A55 []).memRead (atReset 0x6A55 []).pc.toNat)
      ((atReset 0x6A55 []).memRead ((atReset 0x6A55 []).pc.toNat + 1))) = .ok (.ldImm 10 0x55) := by decide
theorem witness_ScheduledEventHappensNext :
    ({ State.reset with schedule := [.tick, .step] } : State).schedule = .tick :: [.step] := rfl
theorem witness_OnlyIllegalWordsRaiseDecodeError : ∃ s t : State, s.err = none ∧ decode s.fetchWord = .error .major5 ∧
    stepEvent s = .next t ∧ t.err = some .decodeError :=
  have h : answers (stepEvent (atReset 0x5123 [])) (fun t => t.err == some .decodeError) = true := by decide
  let ⟨t, h1, h2⟩ := answers_next h
  ⟨_, t, by decide, by decide, h1, by simpa using h2⟩
theorem witness_StackErrorsHaveExactlyTheirCauses_overflow : ∃ s t : State, s.err = none ∧ stepEvent s = .next t ∧
    t.err = some .stackOverflow ∧ decode s.fetchWord = .ok (.call 0x300) ∧ s.sp = s.cfg.stackDepth :=
  have h : answers (stepEvent ({ State.reset with sp := 16 }.withFetchWord 16 0x2300))
      (fun t => t.err == some .stackOverflow) = true := by decide
  let ⟨t, h1, h2⟩ := answers_next h
  ⟨_, t, by decide, h1, by simpa using h2, by decide, by decide⟩
theorem witness_StackErrorsHaveExactlyTheirCauses_underflow : ∃ s t : State, s.err = none ∧ stepEvent s = .next t ∧
    t.err = some .stackUnderflow ∧ decode s.fetchWord = .ok .ret ∧ s.sp = 0 :=
  have h : answers (stepEvent (atReset 0x00EE [])) (fun t => t.err == some .stackUnderflow) = true := by decide
  let ⟨t, h1, h2⟩ := answers_next h
  ⟨_, t, by decide, h1, by simpa using h2, by decide, by decide⟩
theorem witness_OnlyResetLeavesTheErrorHalt : (State.reset.raise .decodeError).err ≠ none ∧ HostEvent.tick ≠ .reset ∧
    ∃ t, hostEvent .tick (State.reset.raise .decodeError) = .next t := ⟨by decide, by decide, _, rfl⟩
theorem witness_EveryStepKeepsTheInvariant : ∃ s t : State, s.Inv ∧ step s = .next t :=
  have h : answers (step State.reset) (fun _ => true) = true := by decide
  let ⟨t, h1, _⟩ := answers_next h
  ⟨_, t, by decide, h1⟩
/-- The largest font base, and the deepest and shallowest stacks a host may ask for, are legal (R5). -/
theorem witness_ResetMeetsTheInvariant : ({ Config.standard with stackDepth := 1, fontBase := 0x1B0 } : Config).wf ∧
    ({ Config.standard with stackDepth := 1000, fontBase := 0 } : Config).wf := by decide
theorem witness_EveryReachableStateMeetsTheInvariant : Config.standard.wf ∧ ∃ s, Reachable Config.standard s ∧ s.dt = 0 ∧
    s.keyDown 7 = true :=
  ⟨by decide, _, .event (.setKeys (keysDown [7])) _ _ .reset rfl, rfl, by decide⟩
/-- The premises of the font and of the zero clause, at the addresses where they meet. -/
theorem witness_ResetSetsEveryItem : State.reset.cfg.wf ∧ State.reset.cfg.fontTable.length = 80 ∧
    State.reset.memRead (0x050 + 79) = 0x80 ∧ State.reset.memRead (0x050 + 80) = 0 ∧ State.reset.memRead 0x04F = 0 ∧
    State.reset.memRead 4095 = 0 := by decide
theorem witness_StepReportTellsTheOutcome_error : ∃ s t : State, stepEvent s = .next t ∧
    stepReport s = .error .decodeError 0x200 0x5123 ∧ t.err = some .decodeError :=
  have h : answers (stepEvent (atReset 0x5123 [])) (fun t => t.err == some .decodeError) = true := by decide
  let ⟨t, h1, h2⟩ := answers_next h
  ⟨_, t, h1, by decide, by simpa using h2⟩
theorem witness_StepReportTellsTheOutcome_waiting : ∃ s t : State, stepEvent s = .next t ∧ stepReport s = .waitingKey :=
  have h : answers (stepEvent (atReset 0xF10A [])) (fun _ => true) = true := by decide
  let ⟨t, h1, _⟩ := answers_next h
  ⟨_, t, h1, by decide⟩
theorem witness_EveryStepLeavesPcAsItsKindSays : ∃ (s t : State), s.err = none ∧ decode s.fetchWord = .ok (.seReg 3 3) ∧
    stepEvent s = .next t ∧ t.err = none :=
  have h : answers (stepEvent (atReset 0x5330 [])) (fun t => t.err == none) = true := by decide
  let ⟨t, h1, h2⟩ := answers_next h
  ⟨_, t, by decide, by decide, h1, by simpa using h2⟩
theorem witness_EveryStepLeavesPcAsItsKindSays_error : ∃ (s t : State), s.err = none ∧ decode s.fetchWord = .ok .ret ∧
    stepEvent s = .next t ∧ t.err ≠ none :=
  have h : answers (stepEvent (atReset 0x00EE [])) (fun t => t.err != none) = true := by decide
  let ⟨t, h1, h2⟩ := answers_next h
  ⟨_, t, by decide, by decide, h1, by simpa using h2⟩
theorem witness_InstructionsWriteOnlyWhatTheMatrixSays : ∃ t, exec (.storeRegs 3) State.reset = .next t := ⟨_, rfl⟩
/-- Two states that differ in a register `ADD V1, V2` does not read. -/
theorem witness_InstructionsDependOnlyOnWhatTheMatrixSays : ∃ s s' t t' : State, s ≠ s' ∧ s.Inv ∧ s'.Inv ∧
    (∀ it, reads (.addReg 1 2) s it → it.same s s') ∧ exec (.addReg 1 2) s = .next t ∧ exec (.addReg 1 2) s' = .next t' ∧
    writes (.addReg 1 2) s (.v 1) := by
  refine ⟨State.reset, State.reset.setV 3 7, _, _, by decide, by decide, by decide, ?_, rfl, rfl, .inr (.inl rfl)⟩
  rintro it (rfl | rfl | rfl) <;> rfl
/-- Two ways to the same memory: a byte written and written back is no entry. -/
theorem witness_StatesThatAgreeOnEveryItemAreEqual :
    State.reset.Inv ∧ ((State.reset.memWrite 0x300 1).memWrite 0x300 0).Inv ∧
    ∀ it, Item.same it State.reset ((State.reset.memWrite 0x300 1).memWrite 0x300 0) :=
  have h : (State.reset.memWrite 0x300 1).memWrite 0x300 0 = State.reset := by decide
  ⟨by decide, by decide, fun it => by rw [h]; cases it <;> rfl⟩
theorem witness_FlagRegisterIsWrittenOnlyAsListed :
    (∃ t, exec (.subReg 1 2) State.reset = .next t) ∧ (Instr.drw 1 2 0).wellFormed = true ∧
    (∃ t, exec (.drw 1 2 0) State.reset = .next t) ∧ (1 : Reg) ≠ flagReg := ⟨⟨_, rfl⟩, rfl, ⟨_, rfl⟩, by decide⟩
theorem witness_FlagRegisterIsWrittenOnlyAsListed_index : (indexFlagging State.reset).cfg.fx1eSetsVF = true ∧
    ∃ t, exec (.addI 15) (indexFlagging State.reset) = .next t := ⟨rfl, _, rfl⟩
theorem witness_DelayTimerIsChangedOnlyByItsInstructionTickAndReset_step : ∃ s t : State, s.err = none ∧
    hostEvent .step s = .next t ∧ t.dt ≠ s.dt ∧ decode s.fetchWord = .ok (.ldDTVx 0) :=
  have h : answers (hostEvent .step (atReset 0xF015 [(0, 5)])) (fun t => t.dt == 5) = true := by decide
  let ⟨t, h1, h2⟩ := answers_next h
  ⟨_, t, by decide, h1, by rw [show t.dt = 5 by simpa using h2]; decide, by decide⟩
theorem witness_DelayTimerIsChangedOnlyByItsInstructionTickAndReset_tick : (State.reset.setDT 1).err = none ∧
    ∃ t, hostEvent .tick (State.reset.setDT 1) = .next t ∧ t.dt ≠ (State.reset.setDT 1).dt := ⟨rfl, _, rfl, by decide⟩
theorem witness_DelayTimerIsChangedOnlyByItsInstructionTickAndReset_reset :
    ∃ t, hostEvent .reset (State.reset.setDT 255) = .next t ∧ t.dt ≠ (State.reset.setDT 255).dt := ⟨_, rfl, by decide⟩
/-- `V[0]` and `V[1]` stored over the word at the next `PC`; the second clause at the wrap of memory. -/
theorem witness_NextFetchSeesTheStore : ∃ s t : State, exec (.storeRegs 1) s = .next t ∧ (1 : Reg) ≤ 1 ∧
    s.ea (0 : Reg).val = t.pc.toNat ∧ s.ea (1 : Reg).val = (t.pc.toNat + 1) % 4096 :=
  ⟨State.reset.setI 0x202, _, rfl, by decide, by decide, by decide⟩
theorem witness_NextFetchSeesTheStore_wraps : ∃ s t : State, exec (.storeRegs 1) s = .next t ∧
    s.ea (1 : Reg).val = (t.pc.toNat + 1) % 4096 := ⟨(State.reset.setI 0xFFF).setPc 0xFFD, _, rfl, by decide⟩
/-- Each digit at the next `PC`, and each at the byte after it. -/
theorem witness_NextFetchSeesTheStore_digits : ∀ k < 3, ∃ s t : State, exec (.ldB 3) s = .next t ∧ s.ea k = t.pc.toNat
  | 0, _ => ⟨State.reset.setI 0x202, _, rfl, by decide⟩
  | 1, _ => ⟨State.reset.setI 0x201, _, rfl, by decide⟩
  | 2, _ => ⟨State.reset.setI 0x200, _, rfl, by decide⟩
theorem witness_NextFetchSeesTheStore_digits_low : ∀ k < 3, ∃ s t : State, exec (.ldB 3) s = .next t ∧
    s.ea k = (t.pc.toNat + 1) % 4096
  | 0, _ => ⟨State.reset.setI 0x203, _, rfl, by decide⟩
  | 1, _ => ⟨State.reset.setI 0x202, _, rfl, by decide⟩
  | 2, _ => ⟨State.reset.setI 0x201, _, rfl, by decide⟩
theorem witness_StuckStatesAreSelfJumpsAndKeyWaits : (atReset 0x1200 []).err = none ∧
    decode (atReset 0x1200 []).fetchWord = .ok (.jp (atReset 0x1200 []).pc) ∧
    decode (atReset 0xB1FF [(0, 1)]).fetchWord = .ok (.jpV0 0x1FF) ∧
    ((0x1FF : Addr).toNat + ((atReset 0xB1FF [(0, 1)]).getV 0).toNat) % 4096 = (atReset 0xB1FF [(0, 1)]).pc.toNat := by decide
theorem witness_TickDecrementsBothTimers : State.reset.err = none ∧ (State.reset.raise .decodeError).err ≠ none := by decide
theorem witness_TimersAfterManyTicks : (State.reset.setDT 5).err = none ∧ ((State.tick^[6] (State.reset.setDT 5)).dt) = 0 :=
  ⟨rfl, by decide⟩
theorem witness_OnlySetKeysAndResetWriteTheLatches :
    ∃ t, exec (.skp 0) (State.reset.setKeys (keysDown [0, 15])) = .next t := ⟨_, rfl⟩
/-- The first and the last latch, changed by each of the two events that may. -/
theorem witness_OnlySetKeysAndResetWriteTheLatches_events :
    (∃ t, hostEvent (.setKeys (keysDown [0, 15])) State.reset = .next t ∧ t.keyDown 0 ≠ State.reset.keyDown 0 ∧
      t.keyDown 15 ≠ State.reset.keyDown 15) ∧
    ∃ s t : State, hostEvent .reset s = .next t ∧ t.keyDown 0 ≠ s.keyDown 0 ∧ t.keyDown 15 ≠ s.keyDown 15 :=
  ⟨⟨_, rfl, by decide, by decide⟩, State.reset.setKeys (keysDown [0, 15]), _, rfl, by decide, by decide⟩
/-- A program of the largest size, and one byte more. -/
theorem witness_LoadCopiesTheProgramOrNothing : (List.replicate 3584 (7 : Byte)).length ≤ 3584 ∧
    3584 < (List.replicate 3585 (7 : Byte)).length := by
  rw [List.length_replicate, List.length_replicate]; decide
theorem witness_KeyWaitEndsWithTheKey : (atReset 0xF10A []).err = none ∧
    decode (atReset 0xF10A []).fetchWord = .ok (.ldVxK 1) ∧ (∀ k, (atReset 0xF10A []).keyDown k = false) ∧
    ∀ k : Fin 16, (keysDown [11])[k] = decide (k = 11) := by decide
theorem witness_ReturnPopsTheTopEntry : State.reset.sp = 0 ∧ (State.reset.push 0x206).sp ≠ 0 := by decide
theorem witness_CallPushesTheReturnAddress : ({ State.reset with sp := 16 } : State).sp = State.reset.cfg.stackDepth ∧
    ({ State.reset with sp := 15 } : State).sp < State.reset.cfg.stackDepth ∧
    State.reset.stk.length = State.reset.cfg.stackDepth := by decide
/-- A5's program. -/
theorem witness_CallThenReturnComesBack : ∃ s : State, s.err = none ∧ s.sp < s.cfg.stackDepth ∧
    s.stk.length = s.cfg.stackDepth ∧ decode s.fetchWord = .ok (.call 0x300) ∧
    decode (s.memRead16 (0x300 : Addr).toNat) = .ok .ret :=
  ⟨State.reset.storeBytes 0x300 [0x00, 0xEE] |>.withFetchWord 16 0x2300, by decide⟩
theorem witness_SkipsOnRegistersCompareAllEightBits : decode 0x5120 = .ok (.seReg 1 2) ∧ decode 0x512F = .error .major5 ∧
    decode 0x9120 = .ok (.sneReg 1 2) ∧ decode 0x9121 = .error .major9 := by decide
theorem witness_AddWritesSumThenCarry : (14 : Reg) ≠ flagReg := by decide
theorem witness_SubWritesDifferenceThenNotBorrow : (0 : Reg) ≠ flagReg := by decide
theorem witness_SubnWritesReverseDifferenceThenNotBorrow : (7 : Reg) ≠ flagReg := by decide
theorem witness_ShiftsWriteResultThenTheBitShiftedOut : (1 : Reg) ≠ flagReg ∧
    5 = (if State.reset.cfg.shiftUsesVY then (State.reset.setV 1 5).getV 2 else (State.reset.setV 1 5).getV 1).toNat ∧
    5 = (if (shiftingVY State.reset).cfg.shiftUsesVY then (State.reset.setV 2 5).getV 2 else 0).toNat := by decide
theorem witness_RandomIsMaskedByTheImmediate : (7 : Nat) < 8 := by decide
theorem witness_AddIndexWrapsAndFlagsOnlyByParameter : State.reset.cfg.fx1eSetsVF = false ∧
    (indexFlagging State.reset).cfg.fx1eSetsVF = true := by decide
theorem witness_LoadFontPointsAtTheGlyph : State.reset.cfg.wf := by decide
theorem witness_RegisterDumpStoresEachRegister : (15 : Reg) ≤ 15 ∧ (0 : Reg) ≤ 15 := by decide
theorem witness_RegisterLoadReadsEachRegister : (4 : Reg) ≤ 4 ∧ ¬ (5 : Reg) ≤ 4 := by decide
theorem witness_DrawInvertsExactlyTheCoveredCells : (15 : Nat) ≤ 15 ∧
    spriteCovers ((State.reset.setI 0x300).memWrite 0x300 0x80) 63 31 15 63 31 :=
  ⟨Nat.le_refl _, 0, 0, by decide, by decide, by decide, by decide, by decide⟩
/-- A6's two draws. -/
theorem witness_DrawingTwiceRestoresTheDisplay : ∃ s t u : State, (1 : Nat) ≤ 15 ∧ exec (.drw 1 2 1) s = .next t ∧
    exec (.drw 1 2 1) t = .next u ∧ (t.getV 1).toNat % 64 = (s.getV 1).toNat % 64 ∧
    (t.getV 2).toNat % 32 = (s.getV 2).toNat % 32 :=
  ⟨(State.reset.setI 0x300).memWrite 0x300 0xF0, _, _, by decide, rfl, rfl, rfl, rfl⟩
/-- The flag register as the column: 64 before the first draw and 0 after it are the same column. -/
theorem witness_DrawingTwiceRestoresTheDisplay_flag : ∃ s t u : State, (0 : Nat) ≤ 15 ∧ exec (.drw 15 2 0) s = .next t ∧
    exec (.drw 15 2 0) t = .next u ∧ (t.getV 15).toNat % 64 = (s.getV 15).toNat % 64 ∧
    (t.getV 2).toNat % 32 = (s.getV 2).toNat % 32 ∧ t.getV 15 ≠ s.getV 15 :=
  ⟨State.reset.setV 15 64, _, _, by decide, rfl, rfl, rfl, rfl, by decide⟩
theorem witness_KeySkipsTestOneLatch : (7 : Fin 16).val = ((State.reset.setV 1 0x17).getV 1).toNat % 16 := by decide
theorem witness_WaitForKeyDeliversTheLeastKeyDown : (∀ k, State.reset.keyDown k = false) ∧
    (State.reset.setKeys (keysDown [3, 9])).keyDown 3 = true ∧
    ∀ j, j < 3 → (State.reset.setKeys (keysDown [3, 9])).keyDown j = false := by decide

end Sys2Proof.Tests
end

section
/-! PROOF. The one-byte memory write and its frame (R33). -/

namespace Sys2Proof.Machine

variable (s : State)

/-- The byte read at the address of the write (R33). -/
theorem State.memRead_memWrite_same (addr : Nat) (b : Byte) : (s.memWrite addr b).memRead addr = b := by
  rw [State.memRead_memWrite, if_pos rfl]

/-- Addresses that differ mod 4096 are different bytes (R33, R34). -/
theorem State.memRead_memWrite_other {addr a : Nat} (b : Byte) (h : a % 4096 ≠ addr % 4096) :
    (s.memWrite addr b).memRead a = s.memRead a := by
  rw [State.memRead_memWrite, if_neg h]

/-- The frame of a one-byte write: every item but the byte at `addr mod 4096` (R33). -/
theorem State.memWrite_changesOnly (addr : Nat) (b : Byte) :
    ChangesOnly (fun it => ∃ a : Addr, it = .mem a ∧ a.toNat = addr % 4096) s (s.memWrite addr b) := by
  intro it hit
  cases it with
  | mem a =>
    have hne : a.toNat % 4096 ≠ addr % 4096 := by
      rw [Nat.mod_eq_of_lt a.isLt]
      exact fun ha => hit ⟨a, rfl, ha⟩
    exact (s.memRead_memWrite_other b hne).symm
  | _ => rfl

end Sys2Proof.Machine

open Sys2Proof.Machine

/-- Settles O24: the read rule at the written address, and the frame of the write. -/
theorem memWriteChangesOneByte : Obligations.MemWriteChangesOneByte := fun s addr b =>
  ⟨by rw [State.memRead_mod, State.memRead_memWrite_same], s.memWrite_changesOnly addr b⟩

end

section
/-! PROOF. The sample words of the decoder (R50, R52). -/

namespace Sys2Proof

/-- The illegal sample words, each with the row of R52's table that shuts it out. -/
def illegalSamples : List (OpWord × IllegalWord) :=
  [(0x0000, .major0), (0x00E1, .major0), (0x00FF, .major0), (0x00C1, .major0), (0x0123, .major0), (0x5123, .major5),
   (0x8128, .major8), (0x812D, .major8), (0x812F, .major8), (0x9121, .major9), (0xE19F, .majorE), (0xF100, .majorF),
   (0xF175, .majorF), (0xFFFF, .majorF)]

/-- Each illegal sample word is rejected, and by the name of its own row (R52). -/
theorem decode_illegalSamples : ∀ r ∈ illegalSamples, decode r.1 = .error r.2 := by decide

end Sys2Proof

open Sys2Proof

/-- Settles O1: the decoder computes the fourteen legal words, and rejects the others by their rows of R52. -/
theorem sampleWordsDecodeAsTheSpecSays : Obligations.SampleWordsDecodeAsTheSpecSays := by
  refine ⟨rfl, rfl, rfl, rfl, rfl, rfl, rfl, rfl, rfl, rfl, rfl, rfl, rfl, rfl, fun op hop => ?_⟩
  have hmem : op ∈ illegalSamples.map Prod.fst := hop
  obtain ⟨r, hr, rfl⟩ := List.mem_map.1 hmem
  exact ⟨r.2, decode_illegalSamples r hr⟩

end

section
/-! PROOF. Frames: how two of them compose, and what an error, a jump, a push and a pop may change (R16, R14, R136). -/

namespace Sys2Proof.Machine

/-- An item kept by two changes in a row is kept by both together. -/
theorem Item.same_trans {it : Item} {s t u : State} (h : it.same s t) (h' : it.same t u) : it.same s u := by
  cases it <;> exact Eq.trans h h'

/-- Two changes in a row touch no item but those either of them names. -/
theorem ChangesOnly.append {l l' : List Item} {s t u : State} (h : ChangesOnly (among l) s t)
    (h' : ChangesOnly (among l') t u) : ChangesOnly (among (l' ++ l)) s u := fun it hit =>
  Item.same_trans (h it fun hl => hit (List.mem_append_right l' hl)) (h' it fun hl => hit (List.mem_append_left l hl))

variable (s : State)

theorem State.raise_changesOnly (e : StepError) : ChangesOnly (among [.err]) s (s.raise e) := by
  intro it hit
  cases it with
  | err => exact absurd (List.mem_singleton_self _) hit
  | _ => rfl

theorem State.setPc_changesOnly (a : Addr) : ChangesOnly (among [.pc]) s (s.setPc a) := by
  intro it hit
  cases it with
  | pc => exact absurd (List.mem_singleton_self _) hit
  | _ => rfl

/-- A skip is a jump to one of two addresses (R65). -/
theorem State.skipIf_changesOnly (c : Bool) : ChangesOnly (among [.pc]) s (s.skipIf c) :=
  s.setPc_changesOnly _

/-- A pop leaves the entry it pops in its slot (R66). -/
theorem State.pop_changesOnly : ChangesOnly (among [.sp]) s s.pop := by
  intro it hit
  cases it with
  | sp => exact absurd (List.mem_singleton_self _) hit
  | _ => rfl

theorem State.push_changesOnly (a : Addr) (hroom : s.sp < s.stk.length) :
    ChangesOnly (among [.sp, .stk s.sp]) s (s.push a) := by
  intro it hit
  cases it with
  | sp => exact absurd List.mem_cons_self hit
  | stk k =>
    have hk : k ≠ s.sp := fun hk => hit (by simp [among, hk])
    show s.stkAt k = (s.push a).stkAt k
    rw [State.stkAt_push s a k hroom, if_neg hk]
  | _ => rfl

end Sys2Proof.Machine

end

section
/-! PROOF. Control transfer: the words, each outcome of each instruction, and the address a skip leaves in `PC` (R65 to
R70). -/

namespace Sys2Proof

theorem decode_wordA_jp (nnn : Addr) : decode (wordA 0x1 nnn) = .ok (.jp nnn) := by simp [decode]

theorem decode_wordA_call (nnn : Addr) : decode (wordA 0x2 nnn) = .ok (.call nnn) := by simp [decode]

theorem decode_wordI_seImm (x : Reg) (nn : Byte) : decode (wordI 0x3 x nn) = .ok (.seImm x nn) := by simp [decode]

theorem decode_wordI_sneImm (x : Reg) (nn : Byte) : decode (wordI 0x4 x nn) = .ok (.sneImm x nn) := by simp [decode]

end Sys2Proof

namespace Sys2Proof.Machine

variable (s : State)

theorem exec_ret_of_empty (h : s.sp = 0) : exec .ret s = .next (s.raise .stackUnderflow) := if_pos h

theorem exec_ret_of_nonempty (h : s.sp ≠ 0) : exec .ret s = .next (s.pop.setPc (s.stkAt (s.sp - 1))) := if_neg h

theorem exec_call_of_full (nnn : Addr) (h : s.sp = s.cfg.stackDepth) :
    exec (.call nnn) s = .next (s.raise .stackOverflow) := if_pos h

theorem exec_call_of_room (nnn : Addr) (h : s.sp ≠ s.cfg.stackDepth) :
    exec (.call nnn) s = .next ((s.push s.nextPc).setPc nnn) := if_neg h

/-- `next = (PC + 2) mod 4096` (R7). -/
theorem State.toNat_nextPc : s.nextPc.toNat = (s.pc.toNat + 2) % 4096 := BitVec.toNat_add s.pc 2

/-- Where a skip ends: at the next instruction, or past it (R65). -/
theorem State.toNat_skipIf_pc (c : Bool) :
    (s.skipIf c).pc.toNat = (s.pc.toNat + if c then 4 else 2) % 4096 := by
  cases c
  · exact s.toNat_nextPc
  · show (s.nextPc + 2).toNat = (s.pc.toNat + 4) % 4096
    rw [BitVec.toNat_add, State.toNat_nextPc]
    exact Nat.mod_add_mod (s.pc.toNat + 2) 4096 2

/-- A skip on equal bytes compares them as unsigned numbers, all eight bits (R69). -/
theorem State.toNat_skipIf_beq_pc (p q : Byte) :
    (s.skipIf (p == q)).pc.toNat = (s.pc.toNat + if p.toNat = q.toNat then 4 else 2) % 4096 := by
  rw [State.toNat_skipIf_pc]
  simp only [beq_iff_eq, BitVec.toNat_inj]

/-- A skip on different bytes is the complement (R70). -/
theorem State.toNat_skipIf_bne_pc (p q : Byte) :
    (s.skipIf (p != q)).pc.toNat = (s.pc.toNat + if p.toNat = q.toNat then 2 else 4) % 4096 := by
  rw [State.toNat_skipIf_pc]
  simp only [bne_iff_ne, ite_not, ne_eq, BitVec.toNat_inj]

end Sys2Proof.Machine

open Sys2Proof Sys2Proof.Machine

/-- Settles O32: the two branches of the return, by whether the stack is empty; the frame is a pop and then a jump. -/
theorem returnPopsTheTopEntry : Obligations.ReturnPopsTheTopEntry := by
  refine ⟨rfl, fun s => ⟨fun hempty => ?_, fun hsp => ?_⟩⟩
  · exact ⟨_, exec_ret_of_empty s hempty, rfl, s.raise_changesOnly _⟩
  · exact ⟨_, exec_ret_of_nonempty s hsp, Nat.sub_one_add_one hsp, rfl,
      s.pop_changesOnly.append (s.pop.setPc_changesOnly _)⟩

/-- Settles O33: the word is `1NNN`'s, and the jump sets `PC` alone. -/
theorem jumpGoesToItsAddress : Obligations.JumpGoesToItsAddress := by
  intro s nnn
  refine ⟨?_, s.setPc nnn, rfl, rfl, s.setPc_changesOnly nnn⟩
  rw [ofNat_eq_wordA 0x1 nnn _ (by rfl), decode_wordA_jp]

/-- Settles O34: the two branches of the call, by whether the stack is full; the frame is a push and then a jump. -/
theorem callPushesTheReturnAddress : Obligations.CallPushesTheReturnAddress := by
  intro s nnn
  refine ⟨?_, fun hfull => ?_, fun hsp hlen => ?_⟩
  · rw [ofNat_eq_wordA 0x2 nnn _ (by rfl), decode_wordA_call]
  · exact ⟨_, exec_call_of_full s nnn hfull, rfl, s.raise_changesOnly _⟩
  · have hroom : s.sp < s.stk.length := hlen ▸ hsp
    refine ⟨_, exec_call_of_room s nnn (Nat.ne_of_lt hsp), ?_, rfl, rfl,
      (s.push_changesOnly _ hroom).append (State.setPc_changesOnly _ nnn)⟩
    rw [State.setPc_stkAt, State.stkAt_push s _ _ hroom, if_pos rfl, State.toNat_nextPc]

/-- Settles O36: the words are `3XNN`'s and `4XNN`'s, and each skip compares the bytes as numbers. -/
theorem skipsOnImmediateCompareAllEightBits : Obligations.SkipsOnImmediateCompareAllEightBits := by
  intro s x nn
  refine ⟨?_, ?_, ⟨_, rfl, s.toNat_skipIf_beq_pc _ nn, s.skipIf_changesOnly _⟩,
    ⟨_, rfl, s.toNat_skipIf_bne_pc _ nn, s.skipIf_changesOnly _⟩⟩
  · rw [ofNat_eq_wordI 0x3 x nn _ (by rw [Nat.mul_comm]; rfl), decode_wordI_seImm]
  · rw [ofNat_eq_wordI 0x4 x nn _ (by rw [Nat.mul_comm]; rfl), decode_wordI_sneImm]

end

section
/-! PROOF. Register-only instructions: the end of an instruction with one destination, and the end of one that also writes a
flag (R15 (a), R81). -/

namespace Sys2Proof.Machine

/-- A frame of named items is a frame of registers when each item named is `PC` or one of them. -/
theorem ChangesOnly.changesRegs {l : List Item} {rs : List Reg} {s t : State} (h : ChangesOnly (among l) s t)
    (hl : ∀ it ∈ l, it = .pc ∨ ∃ r ∈ rs, it = .v r) : ChangesRegs rs s t := fun it hit =>
  h it fun hmem => hit (hl it hmem)

variable (s : State)

theorem State.toNat_advance_pc : s.advance.pc.toNat = (s.pc.toNat + 2) % 4096 := s.toNat_nextPc

theorem State.advance_changesOnly : ChangesOnly (among [.pc]) s s.advance := s.setPc_changesOnly _

theorem State.setV_changesOnly (x : Reg) (b : Byte) : ChangesOnly (among [.v x]) s (s.setV x b) := by
  intro it hit
  cases it with
  | v y =>
    have hy : y ≠ x := fun hy => hit (by simp [among, hy])
    show s.getV y = (s.setV x b).getV y
    rw [State.getV_setV, if_neg hy]
  | _ => rfl

/-! ### One destination -/

theorem State.getV_advance_setV_same (x : Reg) (b : Byte) : (s.setV x b).advance.getV x = b := by
  rw [State.advance_getV, State.getV_setV, if_pos rfl]

theorem State.advance_setV_changesRegs (x : Reg) (b : Byte) : ChangesRegs [x] s (s.setV x b).advance :=
  ((s.setV_changesOnly x b).append (State.advance_changesOnly _)).changesRegs (by simp)

/-! ### A destination and the flag -/

theorem State.getV_finishFlagged_dest {x : Reg} (r : Byte) (f : Bool) (hx : x ≠ flagReg) :
    (s.finishFlagged x r f).getV x = r := by
  rw [State.getV_finishFlagged, if_neg hx, if_pos rfl]

/-- The flag is what remains in `V[0xF]`, also when the destination is `V[0xF]` (R81). -/
theorem State.getV_finishFlagged_flag (x : Reg) (r : Byte) (f : Bool) :
    (s.finishFlagged x r f).getV flagReg = flagByte f := by
  rw [State.getV_finishFlagged, if_pos rfl]

theorem State.toNat_finishFlagged_pc (x : Reg) (r : Byte) (f : Bool) :
    (s.finishFlagged x r f).pc.toNat = (s.pc.toNat + 2) % 4096 := s.toNat_nextPc

theorem State.finishFlagged_changesRegs (x : Reg) (r : Byte) (f : Bool) :
    ChangesRegs [x, flagReg] s (s.finishFlagged x r f) :=
  (((s.setV_changesOnly x r).append (State.setV_changesOnly _ flagReg (flagByte f))).append
    (State.advance_changesOnly _)).changesRegs (by simp)

/-! ### Sums, differences and flags as numbers -/

theorem toNat_ofNat_exactSum (p q : Byte) : (BitVec.ofNat 8 (exactSum p q)).toNat = (p.toNat + q.toNat) % 256 :=
  BitVec.toNat_ofNat (p.toNat + q.toNat) 8

/-- The difference mod 256 with the 256 added first, as no natural number is negative (R89). -/
theorem toNat_sub_byte (p q : Byte) : (p - q).toNat = (p.toNat + 256 - q.toNat) % 256 := by
  rw [BitVec.toNat_sub]
  have := q.isLt
  omega

theorem toNat_flagByte_decide (c : Prop) [Decidable c] : (flagByte (decide c)).toNat = if c then 1 else 0 := by
  by_cases hc : c <;> simp [flagByte, hc]

theorem toNat_flagByte_carryOut (p q : Byte) :
    (flagByte (carryOut p q)).toNat = if 255 < p.toNat + q.toNat then 1 else 0 :=
  toNat_flagByte_decide (255 < p.toNat + q.toNat)

theorem toNat_flagByte_notBorrow (p q : Byte) :
    (flagByte (notBorrow p q)).toNat = if q.toNat ≤ p.toNat then 1 else 0 :=
  toNat_flagByte_decide (q.toNat ≤ p.toNat)

end Sys2Proof.Machine

end

section
/-! PROOF. Register loads and additions: the words, and what each instruction leaves (R82 to R84, R88, R89). -/

namespace Sys2Proof

theorem decode_wordI_ldImm (x : Reg) (nn : Byte) : decode (wordI 0x6 x nn) = .ok (.ldImm x nn) := by simp [decode]

theorem decode_wordI_addImm (x : Reg) (nn : Byte) : decode (wordI 0x7 x nn) = .ok (.addImm x nn) := by simp [decode]

theorem decode_wordR_ldReg (x y : Reg) : decode (wordR 0x8 x y 0x0) = .ok (.ldReg x y) := by
  simp [decode, decode8]

theorem decode_wordR_addReg (x y : Reg) : decode (wordR 0x8 x y 0x4) = .ok (.addReg x y) := by
  simp [decode, decode8]

theorem decode_wordR_subReg (x y : Reg) : decode (wordR 0x8 x y 0x5) = .ok (.subReg x y) := by
  simp [decode, decode8]

/-- The number `8XYn` is written as, its minor opcode in place (R47). -/
theorem ofNat_eq_wordR_major8 (x y : Reg) (n : Nibble) :
    BitVec.ofNat 16 (0x8000 + n.toNat + 256 * x.val + 16 * y.val) = wordR 0x8 x y n :=
  ofNat_eq_wordR 0x8 x y n _ (by rw [show (0x8 : Nibble).toNat = 8 from rfl]; omega)

end Sys2Proof

open Sys2Proof Sys2Proof.Machine

/-- Settles O39: the words are `6XNN`'s, `7XNN`'s and `8XY0`'s, and each writes one register and goes to the next word. -/
theorem loadsAndImmediateAddWriteOnlyTheirRegister : Obligations.LoadsAndImmediateAddWriteOnlyTheirRegister := by
  intro s x y nn
  refine ⟨?_, ?_, ?_, ⟨_, rfl, s.getV_advance_setV_same x _, State.toNat_advance_pc _, s.advance_setV_changesRegs x _⟩,
    ⟨_, rfl, ?_, State.toNat_advance_pc _, s.advance_setV_changesRegs x _⟩,
    ⟨_, rfl, s.getV_advance_setV_same x _, State.toNat_advance_pc _, s.advance_setV_changesRegs x _⟩⟩
  · rw [ofNat_eq_wordI 0x6 x nn _ (by rw [Nat.mul_comm]; rfl), decode_wordI_ldImm]
  · rw [ofNat_eq_wordI 0x7 x nn _ (by rw [Nat.mul_comm]; rfl), decode_wordI_addImm]
  · exact (congrArg decode (ofNat_eq_wordR_major8 x y 0x0)).trans (decode_wordR_ldReg x y)
  · rw [State.getV_advance_setV_same, toNat_ofNat_exactSum]

/-- Settles O41: the word is `8XY4`'s, and the end of a flag-writing instruction with the sum and its carry. -/
theorem addWritesSumThenCarry : Obligations.AddWritesSumThenCarry := by
  intro s x y
  refine ⟨(congrArg decode (ofNat_eq_wordR_major8 x y 0x4)).trans (decode_wordR_addReg x y), _, rfl, fun hx => ?_, ?_,
    s.toNat_finishFlagged_pc x _ _, s.finishFlagged_changesRegs x _ _⟩
  · rw [s.getV_finishFlagged_dest _ _ hx, toNat_ofNat_exactSum]
  · rw [State.getV_finishFlagged_flag, toNat_flagByte_carryOut]

/-- Settles O42: the word is `8XY5`'s, and the end of a flag-writing instruction with the difference and its not-borrow. -/
theorem subWritesDifferenceThenNotBorrow : Obligations.SubWritesDifferenceThenNotBorrow := by
  intro s x y
  refine ⟨(congrArg decode (ofNat_eq_wordR_major8 x y 0x5)).trans (decode_wordR_subReg x y), _, rfl, fun hx => ?_, ?_,
    s.toNat_finishFlagged_pc x _ _, s.finishFlagged_changesRegs x _ _⟩
  · rw [s.getV_finishFlagged_dest _ _ hx, toNat_sub_byte]
  · rw [State.getV_finishFlagged_flag, toNat_flagByte_notBorrow]

end

section
/-! PROOF. Index register and memory: `ANNN`, the bytes that a store at `I` leaves, and the next fetch (R101, R32, R43). -/

namespace Sys2Proof

theorem decode_wordA_ldI (nnn : Addr) : decode (wordA 0xA nnn) = .ok (.ldI nnn) := by simp [decode]

/-- The word of two bytes as a number, high byte first (R32). -/
theorem toNat_wordOfBytes (hi lo : Byte) : (wordOfBytes hi lo).toNat = hi.toNat * 256 + lo.toNat := by
  rw [wordOfBytes, BitVec.toNat_append, ← Nat.shiftLeft_add_eq_or_of_lt lo.isLt, Nat.shiftLeft_eq]

theorem toNat_wordOfBytes_div (hi lo : Byte) : (wordOfBytes hi lo).toNat / 256 = hi.toNat := by
  rw [toNat_wordOfBytes]
  have := lo.isLt
  omega

theorem toNat_wordOfBytes_mod (hi lo : Byte) : (wordOfBytes hi lo).toNat % 256 = lo.toNat := by
  rw [toNat_wordOfBytes]
  have := lo.isLt
  omega

end Sys2Proof

namespace Sys2Proof.Machine

variable (s : State)

theorem State.setI_changesOnly (a : Addr) : ChangesOnly (among [.i]) s (s.setI a) := by
  intro it hit
  cases it with
  | i => exact absurd (List.mem_singleton_self _) hit
  | _ => rfl

/-! ### The two halves of a fetch -/

/-- The high half of the fetched word is the byte at `PC` (R32, R45). -/
theorem State.toNat_fetchWord_div : s.fetchWord.toNat / 256 = (s.memRead s.pc.toNat).toNat :=
  toNat_wordOfBytes_div _ _

/-- The low half is the byte at `PC + 1`, reduced by itself (R32, R34). -/
theorem State.toNat_fetchWord_mod :
    s.fetchWord.toNat % 256 = (s.memRead ((s.pc.toNat + 1) % 4096)).toNat := by
  rw [State.memRead_mod]
  exact toNat_wordOfBytes_mod _ _

/-! ### The bytes stored at `I` -/

/-- Byte `k` of a list stored at `I` is read at `EA(k)` (R100). -/
theorem State.memRead_ea_storeBytes {bs : List Byte} {k : Nat} {b : Byte} (hlen : bs.length ≤ 4096)
    (hb : bs[k]? = some b) : (s.storeBytes s.i.toNat bs).memRead (s.ea k) = b := by
  obtain ⟨hk, rfl⟩ := List.getElem?_eq_some_iff.1 hb
  rw [State.ea, State.memRead_mod, State.memRead_storeBytes s _ bs hlen k hk]

/-- A byte stored at `I` and then fetched: at the new `PC` it is the high half of the word, and at `PC + 1` the low half
(R43). -/
theorem State.fetchWord_sees_storeBytes {bs : List Byte} {k : Nat} {b : Byte} {t : State} (hlen : bs.length ≤ 4096)
    (hb : bs[k]? = some b) (ht : (s.storeBytes s.i.toNat bs).advance = t) :
    (s.ea k = t.pc.toNat → t.fetchWord.toNat / 256 = b.toNat) ∧
    (s.ea k = (t.pc.toNat + 1) % 4096 → t.fetchWord.toNat % 256 = b.toNat) := by
  have hread : t.memRead (s.ea k) = b := ht ▸ s.memRead_ea_storeBytes hlen hb
  refine ⟨fun hpc => ?_, fun hpc => ?_⟩
  · rw [State.toNat_fetchWord_div, ← hpc, hread]
  · rw [State.toNat_fetchWord_mod, ← hpc, hread]

theorem State.getElem?_regsUpTo {x r : Reg} (h : r ≤ x) : (s.regsUpTo x)[r.val]? = some (s.getV r) := by
  have hr : r.val < (s.regsUpTo x).length := by
    rw [State.length_regsUpTo]
    exact Nat.lt_succ_of_le h
  rw [List.getElem?_eq_getElem hr, State.getElem_regsUpTo]

@[simp] theorem length_bcdDigits (b : Byte) : (bcdDigits b).length = 3 := rfl

/-- Each decimal digit of a byte fits in a byte: nothing is cut off (R104). -/
theorem map_toNat_bcdDigits (b : Byte) :
    (bcdDigits b).map BitVec.toNat = [b.toNat / 100, b.toNat / 10 % 10, b.toNat % 10] := by
  have := b.isLt
  simp (disch := omega) only [bcdDigits, List.map_cons, List.map_nil, BitVec.toNat_ofNat, Nat.mod_eq_of_lt]

end Sys2Proof.Machine

open Sys2Proof Sys2Proof.Machine

/-- Settles O25: each byte a store leaves at `EA(k)` is a half of the next word when its address is one of the two fetched;
the bytes are the registers up to `V[x]`, or the three digits. -/
theorem nextFetchSeesTheStore : Obligations.NextFetchSeesTheStore := by
  refine ⟨fun s t x r hexec hrx => ?_, fun s t x k digit hexec hdigit => ?_⟩
  · have hlen : (s.regsUpTo x).length ≤ 4096 := by
      rw [State.length_regsUpTo]
      have := x.isLt
      omega
    exact s.fetchWord_sees_storeBytes hlen (s.getElem?_regsUpTo hrx) (Host.Outcome.next.inj hexec)
  · have hget : ((bcdDigits (s.getV x)).map BitVec.toNat)[k]? = some digit := by
      rw [map_toNat_bcdDigits]
      obtain ⟨rfl, rfl⟩ | ⟨rfl, rfl⟩ | ⟨rfl, rfl⟩ := hdigit <;> rfl
    rw [List.getElem?_map] at hget
    obtain ⟨b, hb, rfl⟩ := Option.map_eq_some_iff.1 hget
    exact s.fetchWord_sees_storeBytes (by simp) hb (Host.Outcome.next.inj hexec)

/-- Settles O46: the word is `ANNN`'s, and the frame is a write of `I` and then the next `PC`. -/
theorem loadIndexSetsTheIndex : Obligations.LoadIndexSetsTheIndex := by
  intro s nnn
  refine ⟨?_, _, rfl, rfl, State.toNat_advance_pc _, (s.setI_changesOnly nnn).append (State.advance_changesOnly _)⟩
  rw [ofNat_eq_wordA 0xA nnn _ (by rfl), decode_wordA_ldI]

end

section
/-! PROOF. Clearing the display: the frame of a new display, and of an instruction that ends with `pc <- next` (R111,
R15 (a)). -/

namespace Sys2Proof.Machine

variable (s : State)

/-- A new display changes cells alone (R110). -/
theorem State.setDisp_changesOnly (d : Display) : ChangesOnly wholeDisplay s (s.setDisp d) := by
  intro it hit
  cases it with
  | disp px py => exact absurd ⟨px, py, rfl⟩ hit
  | _ => rfl

/-- Going to the next word adds `PC` to what has changed (R15 (a)). -/
theorem ChangesOnly.advance {named : Item → Prop} {s t : State} (h : ChangesOnly named s t) :
    ChangesOnly (fun it => it = .pc ∨ named it) s t.advance := fun it hit =>
  Item.same_trans (h it fun hnamed => hit (.inr hnamed))
    (t.advance_changesOnly it fun hpc => hit (.inl (List.mem_singleton.1 hpc)))

end Sys2Proof.Machine

open Sys2Proof.Machine

/-- Settles O52: the decoder computes the word, the new display is the dark one, and the frame is that of a new display and
then the next `PC`. -/
theorem clearDarkensEveryCell : Obligations.ClearDarkensEveryCell :=
  ⟨rfl, fun s => ⟨_, rfl, Display.pixel_dark, State.toNat_advance_pc _, (s.setDisp_changesOnly Display.dark).advance⟩⟩

end

section
/-! PROOF. Setting the delay timer: the word `FX15`, and the frame of a write of `DT` (R124). -/

namespace Sys2Proof

theorem decode_wordX_ldDTVx (x : Reg) : decode (wordX 0xF x 0x15) = .ok (.ldDTVx x) := by
  simp [decode, decodeF, wordX]

/-- The number `FXmm` is written as, its minor opcode in place (R47). -/
theorem ofNat_eq_wordX_majorF (x : Reg) (minor : Byte) :
    BitVec.ofNat 16 (0xF000 + minor.toNat + 256 * x.val) = wordX 0xF x minor :=
  ofNat_eq_wordI 0xF x minor _ (by rw [show (0xF : Nibble).toNat = 15 from rfl]; omega)

end Sys2Proof

namespace Sys2Proof.Machine

variable (s : State)

theorem State.setDT_changesOnly (b : Byte) : ChangesOnly (among [.dt]) s (s.setDT b) := by
  intro it hit
  cases it with
  | dt => exact absurd (List.mem_singleton_self _) hit
  | _ => rfl

end Sys2Proof.Machine

open Sys2Proof Sys2Proof.Machine

/-- Settles O56: the word is `FX15`'s, and the frame is a write of `DT` and then the next `PC`. -/
theorem setDelayTimerCopiesTheRegister : Obligations.SetDelayTimerCopiesTheRegister := by
  intro s x
  exact ⟨(congrArg decode (ofNat_eq_wordX_majorF x 0x15)).trans (decode_wordX_ldDTVx x), _, rfl, rfl,
    State.toNat_advance_pc _, (s.setDT_changesOnly _).append (State.advance_changesOnly _)⟩

end

section
/-! PROOF. Errors of a step: which instructions raise, what the `Step` of a running machine does with the word it fetched, and
the causes of the three errors (R131 to R133, R136, R45). -/

namespace Sys2Proof.Machine

open Host (Outcome)

variable {s t : State}

/-- What an instruction does to `ERR`: a return from the empty stack and a call on the full one raise and do nothing else, and
every other execution leaves `ERR` as it was (R132, R133, R136). -/
theorem exec_err_cases {i : Instr} (h : exec i s = .next t) :
    (i = .ret ∧ s.sp = 0 ∧ t = s.raise .stackUnderflow) ∨
    (∃ nnn, i = .call nnn ∧ s.sp = s.cfg.stackDepth ∧ t = s.raise .stackOverflow) ∨
    ((i = .ret → s.sp ≠ 0) ∧ (∀ nnn, i = .call nnn → s.sp ≠ s.cfg.stackDepth) ∧ t.err = s.err) := by
  cases i with
  | ret =>
    by_cases hsp : s.sp = 0
    · exact .inl ⟨rfl, hsp, Outcome.next.inj (h.symm.trans (exec_ret_of_empty s hsp))⟩
    · obtain rfl := Outcome.next.inj (h.symm.trans (exec_ret_of_nonempty s hsp))
      exact .inr (.inr ⟨fun _ => hsp, nofun, rfl⟩)
  | call nnn =>
    by_cases hsp : s.sp = s.cfg.stackDepth
    · exact .inr (.inl ⟨nnn, rfl, hsp, Outcome.next.inj (h.symm.trans (exec_call_of_full s nnn hsp))⟩)
    · obtain rfl := Outcome.next.inj (h.symm.trans (exec_call_of_room s nnn hsp))
      exact .inr (.inr ⟨nofun, fun _ _ => hsp, rfl⟩)
  | addI x =>
    obtain rfl := Outcome.next.inj h
    refine .inr (.inr ⟨nofun, nofun, ?_⟩)
    rw [State.advance_err]
    split <;> rfl
  | ldVxK x =>
    refine .inr (.inr ⟨nofun, nofun, ?_⟩)
    simp only [exec, execLdVxK] at h
    split at h <;> exact Outcome.next.inj h ▸ rfl
  | ldB x | storeRegs x | loadRegs x =>
    obtain rfl := Outcome.next.inj h
    exact .inr (.inr ⟨nofun, nofun, by simp⟩)
  | _ => exact .inr (.inr ⟨nofun, nofun, Outcome.next.inj h ▸ rfl⟩)

theorem stepEvent_of_illegal {e : IllegalWord} (hrun : s.err = none) (hd : decode s.fetchWord = .error e) :
    stepEvent s = .next (s.raise .decodeError) := by
  simp [stepEvent, State.halted, hrun, hd]

theorem stepEvent_of_legal {i : Instr} (hrun : s.err = none) (hd : decode s.fetchWord = .ok i) :
    stepEvent s = exec i s := by
  simp [stepEvent, State.halted, hrun, hd]

/-- What the `Step` of a running machine does: an Illegal word raises `DecodeError` and nothing else, and a legal one is
executed (R45, R131). -/
theorem stepEvent_cases (hrun : s.err = none) (h : stepEvent s = .next t) :
    (∃ e, decode s.fetchWord = .error e ∧ t = s.raise .decodeError) ∨
    (∃ i, decode s.fetchWord = .ok i ∧ exec i s = .next t) := by
  cases hd : decode s.fetchWord with
  | error e => exact .inl ⟨e, rfl, Outcome.next.inj (h.symm.trans (stepEvent_of_illegal hrun hd))⟩
  | ok i => exact .inr ⟨i, rfl, (stepEvent_of_legal hrun hd).symm.trans h⟩

end Sys2Proof.Machine

open Sys2Proof Sys2Proof.Machine

/-- Settles O9: an Illegal word raises and changes `ERR` alone; a legal one is executed, and no instruction raises
`DecodeError`. -/
theorem onlyIllegalWordsRaiseDecodeError : Obligations.OnlyIllegalWordsRaiseDecodeError := by
  refine fun s hrun => ⟨fun ⟨e, hd⟩ => ⟨_, stepEvent_of_illegal hrun hd, rfl, s.raise_changesOnly _⟩, fun t hstep herr => ?_⟩
  obtain ⟨e, hd, -⟩ | ⟨i, -, hexec⟩ := stepEvent_cases hrun hstep
  · exact ⟨e, hd⟩
  · obtain ⟨-, -, rfl⟩ | ⟨nnn, -, -, rfl⟩ | ⟨-, -, hkeep⟩ := exec_err_cases hexec
    · cases herr
    · cases herr
    · rw [hkeep, hrun] at herr
      cases herr

/-- Settles O10: the four ends of a step, each with its word and its stack, and each with its `ERR`. -/
theorem stackErrorsHaveExactlyTheirCauses : Obligations.StackErrorsHaveExactlyTheirCauses := by
  intro s t hrun hstep
  obtain ⟨e, hd, rfl⟩ | ⟨i, hd, hexec⟩ := stepEvent_cases hrun hstep
  · simp [hd]
  · obtain ⟨rfl, hempty, rfl⟩ | ⟨nnn, rfl, hfull, rfl⟩ | ⟨hret, hcall, hkeep⟩ := exec_err_cases hexec
    · simp [hd, hempty, s.raise_changesOnly]
    · simp [hd, hfull, s.raise_changesOnly]
    · rw [hkeep, hrun, hd]
      simpa using ⟨hcall, hret⟩

end

section
/-! PROOF. The key latches: no instruction, `Step`, `Tick` or `Load` changes one, and `SetKeys` changes nothing else (R156). -/

namespace Sys2Proof.Machine

open Host (Outcome)

variable (s : State)

theorem State.setKeys_changesOnly (k : Keypad) : ChangesOnly wholeKeypad s (s.setKeys k) := by
  intro it hit
  cases it with
  | key j => exact absurd ⟨j, rfl⟩ hit
  | _ => rfl

@[simp] theorem State.tick_key : s.tick.key = s.key := by
  rw [State.tick]
  split <;> rfl

@[simp] theorem State.load_key (bytes : List Byte) : (s.load bytes).key = s.key := by
  rw [State.load]
  split
  · rfl
  · exact s.storeBytes_key _ _

variable {s} {t : State}

/-- States with the same keypad have the same latches (R22). -/
theorem State.keyDown_congr (h : t.key = s.key) (j : Fin 16) : t.keyDown j = s.keyDown j :=
  congrArg (·[j]) h

/-- No instruction changes a latch: not even the key wait clears the latch it reads (R126, R156). -/
theorem exec_key {i : Instr} (h : exec i s = .next t) : t.key = s.key := by
  cases i with
  | ret =>
    by_cases hsp : s.sp = 0
    · exact Outcome.next.inj (h.symm.trans (exec_ret_of_empty s hsp)) ▸ rfl
    · exact Outcome.next.inj (h.symm.trans (exec_ret_of_nonempty s hsp)) ▸ rfl
  | call nnn =>
    by_cases hsp : s.sp = s.cfg.stackDepth
    · exact Outcome.next.inj (h.symm.trans (exec_call_of_full s nnn hsp)) ▸ rfl
    · exact Outcome.next.inj (h.symm.trans (exec_call_of_room s nnn hsp)) ▸ rfl
  | addI x =>
    obtain rfl := Outcome.next.inj h
    rw [State.advance_key]
    split <;> rfl
  | ldVxK x =>
    simp only [exec, execLdVxK] at h
    split at h <;> exact Outcome.next.inj h ▸ rfl
  | ldB x | storeRegs x =>
    obtain rfl := Outcome.next.inj h
    exact s.storeBytes_key _ _
  | loadRegs x =>
    obtain rfl := Outcome.next.inj h
    exact s.loadFirst_key _
  | _ => exact Outcome.next.inj h ▸ rfl

theorem stepEvent_of_halted (hhalt : s.err ≠ none) : stepEvent s = .next s :=
  if_pos (Option.isSome_iff_ne_none.2 hhalt)

/-- No `Step` changes a latch, whether it finds the machine halted, raises or executes (R45, R137, R156). -/
theorem stepEvent_key (h : stepEvent s = .next t) : t.key = s.key := by
  by_cases hrun : s.err = none
  · obtain ⟨e, -, rfl⟩ | ⟨i, -, hexec⟩ := stepEvent_cases hrun h
    · exact s.raise_key _
    · exact exec_key hexec
  · exact Outcome.next.inj (h.symm.trans (stepEvent_of_halted hrun)) ▸ rfl

/-- Every event of the host but `SetKeys` and `Reset` leaves the keypad as it is (R156, R150). -/
theorem hostEvent_key_cases {e : HostEvent} (h : hostEvent e s = .next t) :
    (∃ k, e = .setKeys k) ∨ e = .reset ∨ t.key = s.key := by
  cases e with
  | setKeys k => exact .inl ⟨k, rfl⟩
  | reset => exact .inr (.inl rfl)
  | step => exact .inr (.inr (stepEvent_key h))
  | tick => exact .inr (.inr (Outcome.next.inj h ▸ s.tick_key))
  | load bytes => exact .inr (.inr (Outcome.next.inj h ▸ s.load_key bytes))

end Sys2Proof.Machine

open Sys2Proof.Machine

/-- Settles O29: `SetKeys` by its frame, instructions and `Tick` by what they leave of the keypad, and an event that changed
a latch is none of those that keep it. -/
theorem onlySetKeysAndResetWriteTheLatches : Obligations.OnlySetKeysAndResetWriteTheLatches := by
  refine ⟨fun s k => ⟨_, rfl, fun _ => rfl, s.setKeys_changesOnly k⟩, fun i s t j h => State.keyDown_congr (exec_key h) j,
    fun s => State.keyDown_congr s.tick_key, fun e s t j h hne => ?_⟩
  obtain hset | hreset | hkeep := hostEvent_key_cases h
  · exact .inl hset
  · exact .inr hreset
  · exact absurd (State.keyDown_congr hkeep j) hne

end

section
/-! PROOF. The two round trips between decoder and encoder (R48, R50, R51, R58). -/

namespace Sys2Proof

/-! ### Decoding the word of an instruction -/

/-- The words of all 34 rows decode to their own instruction, by their major nibble and then their minor opcode (R50). -/
theorem decode_encode {i : Instr} (hwf : i.wellFormed = true) : decode (encode i) = .ok i := by
  cases i with
  | cls | ret => rfl
  | drw x y n =>
    have hn : n < 16 := Nat.lt_succ_of_le (of_decide_eq_true hwf)
    simp [encode, decode, Nat.mod_eq_of_lt hn]
  | ldReg | orReg | andReg | xorReg | addReg | subReg | shrReg | subnReg | shlReg => simp [encode, decode, decode8]
  | skp | sknp => simp [encode, decode, decodeE, wordX]
  | ldVxDT | ldVxK | ldDTVx | ldSTVx | addI | ldF | ldB | storeRegs | loadRegs => simp [encode, decode, decodeF, wordX]
  | _ => simp [encode, decode]

/-- The number `8XYn` is written as decodes to the instruction with that word (R47). -/
theorem decode_major8 {i : Instr} {x y : Reg} (minor : Nibble) (hwf : i.wellFormed = true)
    (henc : encode i = wordR 0x8 x y minor) :
    decode (BitVec.ofNat 16 (0x8000 + minor.toNat + 256 * x.val + 16 * y.val)) = .ok i := by
  rw [ofNat_eq_wordR_major8, ← henc, decode_encode hwf]

/-- The number `EXmm` is written as decodes to the instruction with that word (R47). -/
theorem decode_majorE {i : Instr} {x : Reg} (minor : Byte) (hwf : i.wellFormed = true)
    (henc : encode i = wordX 0xE x minor) : decode (BitVec.ofNat 16 (0xE000 + minor.toNat + 256 * x.val)) = .ok i := by
  have hword : BitVec.ofNat 16 (0xE000 + minor.toNat + 256 * x.val) = wordX 0xE x minor :=
    ofNat_eq_wordI 0xE x minor _ (by rw [show (0xE : Nibble).toNat = 14 from rfl]; omega)
  rw [hword, ← henc, decode_encode hwf]

/-- The number `FXmm` is written as decodes to the instruction with that word (R47). -/
theorem decode_majorF {i : Instr} {x : Reg} (minor : Byte) (hwf : i.wellFormed = true)
    (henc : encode i = wordX 0xF x minor) : decode (BitVec.ofNat 16 (0xF000 + minor.toNat + 256 * x.val)) = .ok i := by
  rw [ofNat_eq_wordX_majorF, ← henc, decode_encode hwf]

/-! ### Encoding what a word decodes to -/

variable {op : OpWord} {i : Instr}

theorem encode_of_decode0 (h : decode0 op = .ok i) : encode i = op ∧ i.wellFormed = true := by
  simp only [decode0] at h
  split_ifs at h with hcls hret
  · cases h; exact ⟨hcls.symm, rfl⟩
  · cases h; exact ⟨hret.symm, rfl⟩

/-- Each minor opcode of major nibble 8 stands in the word its instruction encodes to. -/
theorem encode_of_decode8 (h : decode8 op = .ok i) :
    encode i = wordR 0x8 (fieldX op) (fieldY op) (fieldN op) ∧ i.wellFormed = true := by
  simp only [decode8] at h
  split at h <;> cases h
  all_goals
    rename_i hn
    exact ⟨congrArg (wordR 0x8 _ _) (BitVec.eq_of_toNat_eq hn).symm, rfl⟩

/-- Each minor opcode of major nibble E stands in the word its instruction encodes to. -/
theorem encode_of_decodeE (h : decodeE op = .ok i) :
    encode i = wordI 0xE (fieldX op) (fieldNN op) ∧ i.wellFormed = true := by
  simp only [decodeE] at h
  split at h <;> cases h
  all_goals
    rename_i hn
    exact ⟨congrArg (wordI 0xE _) (BitVec.eq_of_toNat_eq hn).symm, rfl⟩

/-- Each minor opcode of major nibble F stands in the word its instruction encodes to. -/
theorem encode_of_decodeF (h : decodeF op = .ok i) :
    encode i = wordI 0xF (fieldX op) (fieldNN op) ∧ i.wellFormed = true := by
  simp only [decodeF] at h
  split at h <;> cases h
  all_goals
    rename_i hn
    exact ⟨congrArg (wordI 0xF _) (BitVec.eq_of_toNat_eq hn).symm, rfl⟩

/-! The word its fields build, with its major nibble known. -/

theorem wordA_of_major {m : Nibble} (h : (fieldMajor op).toNat = m.toNat) : wordA m (fieldNNN op) = op :=
  BitVec.eq_of_toNat_eq h ▸ wordA_fields op

theorem wordI_of_major {m : Nibble} (h : (fieldMajor op).toNat = m.toNat) : wordI m (fieldX op) (fieldNN op) = op :=
  BitVec.eq_of_toNat_eq h ▸ wordI_fields op

theorem wordR_of_major {m : Nibble} (h : (fieldMajor op).toNat = m.toNat) :
    wordR m (fieldX op) (fieldY op) (fieldN op) = op :=
  BitVec.eq_of_toNat_eq h ▸ wordR_fields op

/-- Formats R with one minor opcode: the low nibble is 0. -/
theorem wordR_zero_of_major {m : Nibble} (h : (fieldMajor op).toNat = m.toNat) (hn : fieldN op = 0) :
    wordR m (fieldX op) (fieldY op) 0x0 = op :=
  hn ▸ wordR_of_major h

/-- The instruction of a legal word encodes to the word, and its operands fit their fields: one case per major nibble (R50,
R51). -/
theorem encode_of_decode (h : decode op = .ok i) : encode i = op ∧ i.wellFormed = true := by
  simp only [decode] at h
  split at h
  · exact encode_of_decode0 h
  · next hm => cases h; exact ⟨wordA_of_major hm, rfl⟩
  · next hm => cases h; exact ⟨wordA_of_major hm, rfl⟩
  · next hm => cases h; exact ⟨wordI_of_major hm, rfl⟩
  · next hm => cases h; exact ⟨wordI_of_major hm, rfl⟩
  · next hm =>
    split_ifs at h with hn
    cases h; exact ⟨wordR_zero_of_major hm hn, rfl⟩
  · next hm => cases h; exact ⟨wordI_of_major hm, rfl⟩
  · next hm => cases h; exact ⟨wordI_of_major hm, rfl⟩
  · next hm => exact wordR_of_major (m := 0x8) hm ▸ encode_of_decode8 h
  · next hm =>
    split_ifs at h with hn
    cases h; exact ⟨wordR_zero_of_major hm hn, rfl⟩
  · next hm => cases h; exact ⟨wordA_of_major hm, rfl⟩
  · next hm => cases h; exact ⟨wordA_of_major hm, rfl⟩
  · next hm => cases h; exact ⟨wordI_of_major hm, rfl⟩
  · next hm =>
    cases h
    refine ⟨?_, decide_eq_true (Nat.le_of_lt_succ (fieldN op).isLt)⟩
    rw [encode, BitVec.ofNat_toNat, BitVec.setWidth_eq]
    exact wordR_of_major hm
  · next hm => exact wordI_of_major (m := 0xE) hm ▸ encode_of_decodeE h
  · have hm : (fieldMajor op).toNat = (0xF : Nibble).toNat := by
      have := (fieldMajor op).isLt
      show (fieldMajor op).toNat = 15
      simp only [imp_false] at *
      omega
    exact wordI_of_major hm ▸ encode_of_decodeF h

end Sys2Proof

open Sys2Proof

/-- Settles O2: the decoder on the word of each of the 34 rows. -/
theorem decodeInvertsEncode : Obligations.DecodeInvertsEncode := fun _ hwf => decode_encode hwf

/-- Settles O3: the encoder on what each major nibble decodes to. -/
theorem encodeInvertsDecode : Obligations.EncodeInvertsDecode := fun _ _ h => encode_of_decode h

end

section
/-! PROOF. The illegal words: what each part of the decoder rejects (R52). -/

namespace Sys2Proof

variable {op : OpWord}

theorem decode0_rejects_iff : (∃ e, decode0 op = .error e) ↔ op.toNat ≠ 0x00E0 ∧ op.toNat ≠ 0x00EE := by
  have hcls : op = 0x00E0 ↔ op.toNat = 0x00E0 := BitVec.toNat_inj.symm
  have hret : op = 0x00EE ↔ op.toNat = 0x00EE := BitVec.toNat_inj.symm
  simp only [decode0, hcls, hret]
  split_ifs with h1 h2 <;> simp [*]

theorem decode8_rejects_iff : (∃ e, decode8 op = .error e) ↔
    (0x8 ≤ op.toNat % 16 ∧ op.toNat % 16 ≤ 0xD ∨ op.toNat % 16 = 0xF) := by
  simp only [decode8, toNat_fieldN]
  split
  all_goals simp [*]
  simp only [imp_false] at *
  omega

theorem decodeE_rejects_iff : (∃ e, decodeE op = .error e) ↔ op.toNat % 256 ≠ 0x9E ∧ op.toNat % 256 ≠ 0xA1 := by
  simp only [decodeE, toNat_fieldNN]
  split
  all_goals simp [*]
  constructor <;> assumption

theorem decodeF_rejects_iff : (∃ e, decodeF op = .error e) ↔
    op.toNat % 256 ∉ [0x07, 0x0A, 0x15, 0x18, 0x1E, 0x29, 0x33, 0x55, 0x65] := by
  simp only [decodeF, toNat_fieldNN]
  split
  all_goals simp [*]
  and_intros <;> assumption

theorem fieldN_eq_zero_iff : fieldN op = 0 ↔ op.toNat % 16 = 0 := by
  rw [← toNat_fieldN, ← BitVec.toNat_inj]; rfl

end Sys2Proof

open Sys2Proof

/-- Settles O4: the decoder at each major nibble, which is the word divided by 4096. -/
theorem illegalWordsAreExactlyTheTable : Obligations.IllegalWordsAreExactlyTheTable := by
  intro op
  simp only [decode, toNat_fieldMajor, fieldN_eq_zero_iff]
  split
  · next hm => simp [hm, decode0_rejects_iff]
  · next hm => simp [hm]
  · next hm => simp [hm]
  · next hm => simp [hm]
  · next hm => simp [hm]
  · next hm => split_ifs with hn <;> simp [hm, hn]
  · next hm => simp [hm]
  · next hm => simp [hm]
  · next hm => simp [hm, decode8_rejects_iff]
  · next hm => split_ifs with hn <;> simp [hm, hn]
  · next hm => simp [hm]
  · next hm => simp [hm]
  · next hm => simp [hm]
  · next hm => simp [hm]
  · next hm => simp [hm, decodeE_rejects_iff]
  · have hm : op.toNat / 4096 = 0xF := by
      have := op.isLt
      simp only [imp_false] at *
      omega
    simp [hm, decodeF_rejects_iff]

end

section
/-! PROOF. The rows of the opcode table: the row of each instruction, and the words that match a row (R58). -/

namespace Sys2Proof

/-- Every instruction's row stands in the table, whatever its operands. -/
theorem rowOf_mem_opcodeTable (i : Instr) : rowOf i ∈ opcodeTable := by
  cases i <;> simp [opcodeTable, rowOf]

/-- The rows of the table are those of instructions. -/
theorem exists_rowOf_of_mem {r : OpcodeRow} (h : r ∈ opcodeTable) : ∃ i, rowOf i = r := by
  simp only [opcodeTable, ← List.map_append] at h
  obtain ⟨i, -, hi⟩ := List.mem_map.1 h
  exact ⟨i, hi⟩

/-- The word of a well-formed instruction matches its row. -/
theorem encode_matches_row {i : Instr} (hwf : i.wellFormed = true) : encode i &&& (rowOf i).mask = (rowOf i).value := by
  cases i with
  | cls => exact Laws.EncodeRow.cls hwf
  | ret => exact Laws.EncodeRow.ret hwf
  | jp nnn => exact Laws.EncodeRow.jp nnn hwf
  | call nnn => exact Laws.EncodeRow.call nnn hwf
  | seImm x nn => exact Laws.EncodeRow.seImm x nn hwf
  | sneImm x nn => exact Laws.EncodeRow.sneImm x nn hwf
  | seReg x y => exact Laws.EncodeRow.seReg x y hwf
  | ldImm x nn => exact Laws.EncodeRow.ldImm x nn hwf
  | addImm x nn => exact Laws.EncodeRow.addImm x nn hwf
  | ldReg x y => exact Laws.EncodeRow.ldReg x y hwf
  | orReg x y => exact Laws.EncodeRow.orReg x y hwf
  | andReg x y => exact Laws.EncodeRow.andReg x y hwf
  | xorReg x y => exact Laws.EncodeRow.xorReg x y hwf
  | addReg x y => exact Laws.EncodeRow.addReg x y hwf
  | subReg x y => exact Laws.EncodeRow.subReg x y hwf
  | shrReg x y => exact Laws.EncodeRow.shrReg x y hwf
  | subnReg x y => exact Laws.EncodeRow.subnReg x y hwf
  | shlReg x y => exact Laws.EncodeRow.shlReg x y hwf
  | sneReg x y => exact Laws.EncodeRow.sneReg x y hwf
  | ldI nnn => exact Laws.EncodeRow.ldI nnn hwf
  | jpV0 nnn => exact Laws.EncodeRow.jpV0 nnn hwf
  | rnd x nn => exact Laws.EncodeRow.rnd x nn hwf
  | drw x y n => exact Laws.EncodeRow.drw x y n hwf
  | skp x => exact Laws.EncodeRow.skp x hwf
  | sknp x => exact Laws.EncodeRow.sknp x hwf
  | ldVxDT x => exact Laws.EncodeRow.ldVxDT x hwf
  | ldVxK x => exact Laws.EncodeRow.ldVxK x hwf
  | ldDTVx x => exact Laws.EncodeRow.ldDTVx x hwf
  | ldSTVx x => exact Laws.EncodeRow.ldSTVx x hwf
  | addI x => exact Laws.EncodeRow.addI x hwf
  | ldF x => exact Laws.EncodeRow.ldF x hwf
  | ldB x => exact Laws.EncodeRow.ldB x hwf
  | storeRegs x => exact Laws.EncodeRow.storeRegs x hwf
  | loadRegs x => exact Laws.EncodeRow.loadRegs x hwf

/-! The fields that a row's mask fixes, one lemma per mask. -/

variable {op v : OpWord}

theorem fieldMajor_of_mask_F000 (h : op &&& 0xF000 = v) : fieldMajor op = v.extractLsb' 12 4 := by
  rw [← h, ← wordA_fields op, wordA_and_mask]
  exact (fieldMajor_wordA _ _).trans (fieldMajor_wordA _ _).symm

theorem fields_of_mask_F00F (h : op &&& 0xF00F = v) :
    fieldMajor op = v.extractLsb' 12 4 ∧ fieldN op = v.extractLsb' 0 4 := by
  rw [← h, ← wordR_fields op, wordR_and_mask]
  exact ⟨(fieldMajor_wordR ..).trans (fieldMajor_wordR ..).symm, (fieldN_wordR ..).trans (fieldN_wordR ..).symm⟩

theorem fields_of_mask_F0FF (h : op &&& 0xF0FF = v) :
    fieldMajor op = v.extractLsb' 12 4 ∧ fieldNN op = v.extractLsb' 0 8 := by
  rw [← h, ← wordI_fields op, ← wordX, wordX_and_mask]
  exact ⟨(fieldMajor_wordI ..).trans (fieldMajor_wordI ..).symm, (fieldNN_wordI ..).trans (fieldNN_wordI ..).symm⟩

/-- A word that matches a row decodes to an instruction of that row: the mask fixes the fields the decoder looks at. -/
theorem decode_of_matches_row {j : Instr} (h : op &&& (rowOf j).mask = (rowOf j).value) :
    ∃ i, decode op = .ok i ∧ rowOf i = rowOf j := by
  cases j with
  | cls | ret =>
    obtain rfl : op = _ := (BitVec.and_allOnes (x := op)).symm.trans h
    exact ⟨_, rfl, rfl⟩
  | jp | call | seImm | sneImm | ldImm | addImm | ldI | jpV0 | rnd | drw =>
    have hmajor := fieldMajor_of_mask_F000 h
    simp only [rowOf, BitVec.reduceExtractLsb'] at hmajor
    simp [decode, hmajor, rowOf]
  | seReg | sneReg | ldReg | orReg | andReg | xorReg | addReg | subReg | shrReg | subnReg | shlReg =>
    obtain ⟨hmajor, hn⟩ := fields_of_mask_F00F h
    simp only [rowOf, BitVec.reduceExtractLsb'] at hmajor hn
    simp [decode, decode8, hmajor, hn, rowOf]
  | skp | sknp | ldVxDT | ldVxK | ldDTVx | ldSTVx | addI | ldF | ldB | storeRegs | loadRegs =>
    obtain ⟨hmajor, hn⟩ := fields_of_mask_F0FF h
    simp only [rowOf, BitVec.reduceExtractLsb'] at hmajor hn
    simp [decode, decodeE, decodeF, hmajor, hn, rowOf]

end Sys2Proof

open Sys2Proof

/-- Settles O5: the round trips put each legal word in the row of its instruction, a matching word decodes into its row, and
so two rows that it matches are the row of one instruction. -/
theorem decoderAgreesWithTheOpcodeTable : Obligations.DecoderAgreesWithTheOpcodeTable := by
  have hdecode : ∀ (op : OpWord), ∀ r ∈ opcodeTable, op &&& r.mask = r.value → ∃ i, decode op = .ok i ∧ rowOf i = r := by
    intro op r hr hmatch
    obtain ⟨j, rfl⟩ := exists_rowOf_of_mem hr
    exact decode_of_matches_row hmatch
  refine ⟨rfl, fun op i h => ⟨rowOf_mem_opcodeTable i, ?_⟩, hdecode, fun op r hr r' hr' hmatch hmatch' => ?_⟩
  · obtain ⟨rfl, hwf⟩ := encode_of_decode h
    exact encode_matches_row hwf
  · obtain ⟨i, hi, rfl⟩ := hdecode op r hr hmatch
    obtain ⟨i', hi', rfl⟩ := hdecode op r' hr' hmatch'
    rw [Except.ok.inj (hi.symm.trans hi')]

end

section
/-! PROOF. The frame of every instruction (R28's `w` columns): frames of the remaining operations, and one case per kind of
instruction. -/

namespace Sys2Proof.Machine

open Host (Outcome)

theorem Item.same_refl (it : Item) (s : State) : it.same s s := by
  cases it <;> exact rfl

theorem ChangesOnly.refl (named : Item → Prop) (s : State) : ChangesOnly named s s := fun it _ => it.same_refl s

/-- A frame that names more items says less. -/
theorem ChangesOnly.mono {p q : Item → Prop} {s t : State} (h : ChangesOnly p s t) (hpq : ∀ it, p it → q it) :
    ChangesOnly q s t := fun it hit => h it fun hp => hit (hpq it hp)

/-- Two changes in a row touch no item but those either of them names, however they name them. -/
theorem ChangesOnly.trans {p q : Item → Prop} {s t u : State} (h : ChangesOnly p s t) (h' : ChangesOnly q t u) :
    ChangesOnly (fun it => p it ∨ q it) s u := fun it hit =>
  Item.same_trans (h it fun hp => hit (.inl hp)) (h' it fun hq => hit (.inr hq))

variable (s : State)

theorem State.setST_changesOnly (b : Byte) : ChangesOnly (among [.st]) s (s.setST b) := by
  intro it hit
  cases it with
  | st => exact absurd (List.mem_singleton_self _) hit
  | _ => rfl

theorem State.countDraw_changesOnly : ChangesOnly (among [.draws]) s s.countDraw := by
  intro it hit
  cases it with
  | draws => exact absurd (List.mem_singleton_self _) hit
  | _ => rfl

/-- A push writes no entry but that of the old `SP`, also where the stack has no such entry (log entry 12). -/
theorem State.stkAt_push_other (a : Addr) {k : Nat} (h : k ≠ s.sp) : (s.push a).stkAt k = s.stkAt k := by
  simp only [State.stkAt_def, State.push_stk, List.getD_eq_getElem?_getD, List.getElem?_set_ne h.symm]

/-- The frame of a push at any level of the stack. -/
theorem State.push_changesOnly_of_any_level (a : Addr) : ChangesOnly (among [.sp, .stk s.sp]) s (s.push a) := by
  intro it hit
  cases it with
  | sp => exact absurd List.mem_cons_self hit
  | stk k => exact (s.stkAt_push_other a fun hk => hit (by simp [among, hk])).symm
  | _ => rfl

/-- The `n` bytes of memory from `addr` on, each address reduced by itself (R34); `bytesAtIndex` is the case `addr = I`. -/
def bytesFrom (addr n : Nat) (it : Item) : Prop := ∃ k a, k < n ∧ it = .mem a ∧ a.toNat = (addr + k) % 4096

/-- The frame of a store: the bytes it writes, one after the other. -/
theorem State.storeBytes_changesOnly (addr : Nat) (bs : List Byte) :
    ChangesOnly (bytesFrom addr bs.length) s (s.storeBytes addr bs) := by
  induction bs generalizing s addr with
  | nil => exact ChangesOnly.refl _ s
  | cons b bs ih =>
    refine ((s.memWrite_changesOnly addr b).trans (ih (s.memWrite addr b) (addr + 1))).mono ?_
    rintro it (⟨a, rfl, ha⟩ | ⟨k, a, hk, rfl, ha⟩)
    · exact ⟨0, a, Nat.zero_lt_succ _, rfl, ha⟩
    · exact ⟨k + 1, a, Nat.succ_lt_succ hk, rfl, by rw [ha, Nat.add_assoc, Nat.add_comm 1 k]⟩

/-- The frame of a store at `I` (R100). -/
theorem State.storeBytes_index_changesOnly {bs : List Byte} {n : Nat} (h : bs.length = n) :
    ChangesOnly (bytesAtIndex s n) s (s.storeBytes s.i.toNat bs) :=
  h ▸ s.storeBytes_changesOnly s.i.toNat bs

/-- The frame of the load loop: the registers below `n` (R106). -/
theorem State.loadFirst_changesOnly (n : Nat) :
    ChangesOnly (fun it => ∃ r : Reg, r.val < n ∧ it = .v r) s (s.loadFirst n) := by
  induction n with
  | zero => exact ChangesOnly.refl _ s
  | succ n ih =>
    simp only [State.loadFirst]
    split
    · next hn =>
      refine (ih.trans (State.setV_changesOnly _ ⟨n, hn⟩ _)).mono ?_
      rintro it (⟨r, hr, rfl⟩ | hv)
      · exact ⟨r, Nat.lt_succ_of_lt hr, rfl⟩
      · exact ⟨⟨n, hn⟩, Nat.lt_succ_self n, List.mem_singleton.1 hv⟩
    · exact ih.mono fun it ⟨r, hr, hv⟩ => ⟨r, Nat.lt_succ_of_lt hr, hv⟩

/-- The frame of `FX65`'s loop: `V[0]` to `V[x]` (R106). -/
theorem State.loadFirst_regsTo (x : Reg) : ChangesOnly (regsTo x) s (s.loadFirst (x.val + 1)) :=
  (s.loadFirst_changesOnly (x.val + 1)).mono fun _ ⟨r, hr, hv⟩ => ⟨r, Nat.le_of_lt_succ hr, hv⟩

/-! ### The instructions with cases

What the return, the call, the key wait and `FX1E` can do, each said once. -/

theorem exec_ldVxK_of_none (x : Reg) (h : s.firstKeyDown = none) : exec (.ldVxK x) s = .next s := by
  simp only [exec, execLdVxK, h]

theorem exec_ldVxK_of_some (x : Reg) {k : Fin 16} (h : s.firstKeyDown = some k) :
    exec (.ldVxK x) s = .next (s.setV x (BitVec.ofNat 8 k.val)).advance := by
  simp only [exec, execLdVxK, h]

/-- `I` after `FX1E` (R102). -/
def State.indexed (s : State) (x : Reg) : State := s.setI (BitVec.ofNat 12 (exactIndexSum s.i (s.getV x)))

theorem exec_addI_of_flag (x : Reg) (h : s.cfg.fx1eSetsVF = true) :
    exec (.addI x) s = .next ((s.indexed x).setV flagReg (flagByte (indexOverflow s.i (s.getV x)))).advance := by
  simp only [exec, execAddI, h, if_true, State.indexed]

theorem exec_addI_of_no_flag (x : Reg) (h : s.cfg.fx1eSetsVF = false) :
    exec (.addI x) s = .next (s.indexed x).advance := by
  simp only [exec, execAddI, h, Bool.false_eq_true, if_false, State.indexed]

variable {s} {t : State}

theorem exec_ret_cases (h : exec .ret s = .next t) :
    (s.sp = 0 ∧ t = s.raise .stackUnderflow) ∨ (s.sp ≠ 0 ∧ t = s.pop.setPc (s.stkAt (s.sp - 1))) := by
  by_cases hsp : s.sp = 0
  · exact .inl ⟨hsp, Outcome.next.inj (h.symm.trans (exec_ret_of_empty s hsp))⟩
  · exact .inr ⟨hsp, Outcome.next.inj (h.symm.trans (exec_ret_of_nonempty s hsp))⟩

theorem exec_call_cases {nnn : Addr} (h : exec (.call nnn) s = .next t) :
    (s.sp = s.cfg.stackDepth ∧ t = s.raise .stackOverflow) ∨
    (s.sp ≠ s.cfg.stackDepth ∧ t = (s.push s.nextPc).setPc nnn) := by
  by_cases hsp : s.sp = s.cfg.stackDepth
  · exact .inl ⟨hsp, Outcome.next.inj (h.symm.trans (exec_call_of_full s nnn hsp))⟩
  · exact .inr ⟨hsp, Outcome.next.inj (h.symm.trans (exec_call_of_room s nnn hsp))⟩

theorem exec_ldVxK_cases {x : Reg} (h : exec (.ldVxK x) s = .next t) :
    (s.firstKeyDown = none ∧ s = t) ∨
    (∃ k, s.firstKeyDown = some k ∧ t = (s.setV x (BitVec.ofNat 8 k.val)).advance) := by
  cases hkey : s.firstKeyDown with
  | none => exact .inl ⟨rfl, Outcome.next.inj ((exec_ldVxK_of_none s x hkey).symm.trans h)⟩
  | some k => exact .inr ⟨k, rfl, Outcome.next.inj (h.symm.trans (exec_ldVxK_of_some s x hkey))⟩

theorem exec_addI_cases {x : Reg} (h : exec (.addI x) s = .next t) :
    (s.cfg.fx1eSetsVF = true ∧
      t = ((s.indexed x).setV flagReg (flagByte (indexOverflow s.i (s.getV x)))).advance) ∨
    (s.cfg.fx1eSetsVF = false ∧ t = (s.indexed x).advance) := by
  cases hflag : s.cfg.fx1eSetsVF with
  | true => exact .inl ⟨rfl, Outcome.next.inj (h.symm.trans (exec_addI_of_flag s x hflag))⟩
  | false => exact .inr ⟨rfl, Outcome.next.inj (h.symm.trans (exec_addI_of_no_flag s x hflag))⟩

/-- Every instruction writes nothing but what the matrix names for it (R28). -/
theorem exec_changesOnly {i : Instr} (h : exec i s = .next t) : ChangesOnly (writes i s) s t := by
  cases i with
  | cls => exact Outcome.next.inj h ▸ (s.setDisp_changesOnly _).advance
  | ret =>
    obtain ⟨hsp, rfl⟩ | ⟨hsp, rfl⟩ := exec_ret_cases h
    · exact (s.raise_changesOnly _).mono (by simp [writes, among, hsp])
    · exact (s.pop_changesOnly.append (s.pop.setPc_changesOnly _)).mono (by simp [writes, among, hsp])
  | call nnn =>
    obtain ⟨hsp, rfl⟩ | ⟨hsp, rfl⟩ := exec_call_cases h
    · exact (s.raise_changesOnly _).mono (by simp [writes, among, hsp])
    · exact ((s.push_changesOnly_of_any_level _).append (State.setPc_changesOnly _ nnn)).mono
        (by simp [writes, among, hsp])
  | jp | jpV0 | seImm | sneImm | seReg | sneReg | skp | sknp =>
    exact Outcome.next.inj h ▸ (s.setPc_changesOnly _).mono (by simp [writes, among])
  | ldImm x | addImm x | ldReg x | orReg x | andReg x | xorReg x | ldVxDT x =>
    exact Outcome.next.inj h ▸ (s.advance_setV_changesRegs x _).mono (by simp [writes])
  | addReg x | subReg x | shrReg x | subnReg x | shlReg x =>
    exact Outcome.next.inj h ▸ (s.finishFlagged_changesRegs x _ _).mono (by simp [writes])
  | ldI | ldF => exact Outcome.next.inj h ▸ (s.setI_changesOnly _).advance.mono (by simp [writes, among])
  | ldDTVx => exact Outcome.next.inj h ▸ (s.setDT_changesOnly _).advance.mono (by simp [writes, among])
  | ldSTVx => exact Outcome.next.inj h ▸ (s.setST_changesOnly _).advance.mono (by simp [writes, among])
  | rnd x =>
    exact Outcome.next.inj h ▸
      ((s.advance_setV_changesRegs x _).trans (State.countDraw_changesOnly _)).mono (by simp [writes, among, or_assoc])
  | drw =>
    exact Outcome.next.inj h ▸ ((s.setDisp_changesOnly _).trans (State.setV_changesOnly _ flagReg _)).advance.mono
      (by simp [writes, among, or_comm])
  | ldVxK x =>
    obtain ⟨-, rfl⟩ | ⟨k, hkey, rfl⟩ := exec_ldVxK_cases h
    · exact ChangesOnly.refl _ s
    · exact (s.advance_setV_changesRegs x _).mono (by simp [writes, hkey])
  | addI x =>
    have hindex : ChangesOnly (among [.i]) s (s.indexed x) := s.setI_changesOnly _
    obtain ⟨hflag, rfl⟩ | ⟨hflag, rfl⟩ := exec_addI_cases h
    · exact (hindex.trans (State.setV_changesOnly _ flagReg _)).advance.mono (by simp [writes, among, hflag])
    · exact hindex.advance.mono (by simp [writes, among, hflag])
  | ldB => exact Outcome.next.inj h ▸ (s.storeBytes_index_changesOnly (length_bcdDigits _)).advance
  | storeRegs x => exact Outcome.next.inj h ▸ (s.storeBytes_index_changesOnly (s.length_regsUpTo x)).advance
  | loadRegs x => exact Outcome.next.inj h ▸ (s.loadFirst_regsTo x).advance

end Sys2Proof.Machine

open Sys2Proof.Machine

/-- Settles O19: the frame of each kind of instruction. -/
theorem instructionsWriteOnlyWhatTheMatrixSays : Obligations.InstructionsWriteOnlyWhatTheMatrixSays :=
  fun _ _ _ h => exec_changesOnly h

end

section
/-! PROOF. The invariant: every step answers a next state and keeps it, and so it holds of every reachable state (R5, R16,
R155). -/

namespace Sys2Proof.Machine

open Host (Outcome)

/-- Every instruction answers a next state in every state. -/
theorem exec_answers (i : Instr) (s : State) : ∃ t, exec i s = .next t := by
  cases i with
  | ret =>
    by_cases hsp : s.sp = 0
    · exact ⟨_, exec_ret_of_empty s hsp⟩
    · exact ⟨_, exec_ret_of_nonempty s hsp⟩
  | call nnn =>
    by_cases hsp : s.sp = s.cfg.stackDepth
    · exact ⟨_, exec_call_of_full s nnn hsp⟩
    · exact ⟨_, exec_call_of_room s nnn hsp⟩
  | ldVxK x =>
    cases hkey : s.firstKeyDown with
    | none => exact ⟨_, exec_ldVxK_of_none s x hkey⟩
    | some k => exact ⟨_, exec_ldVxK_of_some s x hkey⟩
  | _ => exact ⟨_, rfl⟩

theorem stepEvent_answers (s : State) : ∃ t, stepEvent s = .next t := by
  by_cases hrun : s.err = none
  · cases hd : decode s.fetchWord with
    | error e => exact ⟨_, stepEvent_of_illegal hrun hd⟩
    | ok i => exact stepEvent_of_legal hrun hd ▸ exec_answers i s
  · exact ⟨_, stepEvent_of_halted hrun⟩

theorem hostEvent_answers (e : HostEvent) (s : State) : ∃ t, hostEvent e s = .next t := by
  cases e with
  | step => exact stepEvent_answers s
  | _ => exact ⟨_, rfl⟩

variable {s t : State}

/-- With no event scheduled a step is the `Step` event (log entry 6). -/
theorem step_of_unscheduled (h : s.schedule = []) : step s = stepEvent s := by
  simp only [step, h]

/-- A scheduled event is what a step is, on the schedule that is left (log entry 6). -/
theorem step_of_scheduled {e : HostEvent} {rest : List HostEvent} (h : s.schedule = e :: rest) :
    step s = hostEvent e { s with schedule := rest } := by
  simp only [step, h]

/-! ### What keeps the invariant -/

/-- The invariant depends on four fields. -/
theorem State.Inv.congr (h : s.Inv) (hcfg : t.cfg = s.cfg) (hsp : t.sp = s.sp) (hstk : t.stk = s.stk) (hmem : t.mem = s.mem) :
    t.Inv := by
  rw [State.Inv, hcfg, hsp, hstk, hmem]
  exact h

theorem State.Inv.storeBytes (h : s.Inv) (addr : Nat) (bs : List Byte) : (s.storeBytes addr bs).Inv := by
  obtain ⟨hcfg, hsp, hlen, hmem⟩ := h
  rw [State.Inv, State.storeBytes_cfg, State.storeBytes_sp, State.storeBytes_stk]
  exact ⟨hcfg, hsp, hlen, s.wf_storeBytes addr bs hmem⟩

theorem State.Inv.push (h : s.Inv) (hroom : s.sp ≠ s.cfg.stackDepth) (a : Addr) : (s.push a).Inv := by
  obtain ⟨hcfg, hsp, hlen, hmem⟩ := h
  exact ⟨hcfg, Nat.lt_of_le_of_ne hsp hroom, List.length_set.trans hlen, hmem⟩

theorem State.Inv.pop (h : s.Inv) : s.pop.Inv := by
  obtain ⟨hcfg, hsp, hlen, hmem⟩ := h
  exact ⟨hcfg, (Nat.sub_le _ _).trans hsp, hlen, hmem⟩

/-- Every instruction keeps the invariant: calls and returns move `SP` inside its range, stores keep memory canonical, and the
others touch none of the four fields. -/
theorem exec_inv {i : Instr} (hinv : s.Inv) (h : exec i s = .next t) : t.Inv := by
  cases i with
  | ret =>
    obtain ⟨-, rfl⟩ | ⟨-, rfl⟩ := exec_ret_cases h
    · exact hinv
    · exact hinv.pop
  | call nnn =>
    obtain ⟨-, rfl⟩ | ⟨hsp, rfl⟩ := exec_call_cases h
    · exact hinv
    · exact hinv.push hsp _
  | addI x => obtain ⟨-, rfl⟩ | ⟨-, rfl⟩ := exec_addI_cases h <;> exact hinv
  | ldVxK x => obtain ⟨-, rfl⟩ | ⟨k, -, rfl⟩ := exec_ldVxK_cases h <;> exact hinv
  | ldB | storeRegs => exact Outcome.next.inj h ▸ hinv.storeBytes _ _
  | loadRegs x =>
    exact Outcome.next.inj h ▸ hinv.congr (s.loadFirst_cfg _) (s.loadFirst_sp _) (s.loadFirst_stk _) (s.loadFirst_mem _)
  | _ => exact Outcome.next.inj h ▸ hinv

theorem stepEvent_inv (hinv : s.Inv) (h : stepEvent s = .next t) : t.Inv := by
  by_cases hrun : s.err = none
  · obtain ⟨e, -, rfl⟩ | ⟨i, -, hexec⟩ := stepEvent_cases hrun h
    · exact hinv
    · exact exec_inv hinv hexec
  · exact Outcome.next.inj (h.symm.trans (stepEvent_of_halted hrun)) ▸ hinv

theorem State.Inv.tick (h : s.Inv) : s.tick.Inv := by
  rw [State.tick]
  split <;> exact h

theorem State.Inv.load (h : s.Inv) (bytes : List Byte) : (s.load bytes).Inv := by
  rw [State.load]
  split
  · exact h
  · exact h.storeBytes _ _

/-- The state right after `Reset` meets the invariant for legal parameters: no call is open and memory is at its reset
contents (R26). -/
theorem State.resetWith_inv {c : Config} (hc : c.wf) : (State.resetWith c).Inv :=
  ⟨hc, Nat.zero_le _, List.length_replicate, rfl⟩

theorem hostEvent_inv {e : HostEvent} (hinv : s.Inv) (h : hostEvent e s = .next t) : t.Inv := by
  cases e with
  | step => exact stepEvent_inv hinv h
  | tick => exact Outcome.next.inj h ▸ hinv.tick
  | setKeys k => exact Outcome.next.inj h ▸ hinv
  | load bytes => exact Outcome.next.inj h ▸ hinv.load bytes
  | reset => exact Outcome.next.inj h ▸ State.resetWith_inv hinv.1

/-! ### The parameters -/

theorem not_writes_cfg (i : Instr) (s : State) : ¬ writes i s .cfg := by
  cases i <;> simp [writes, bytesAtIndex, regsTo, wholeDisplay]

/-- What no instruction and no raise changes, no `Step` changes (R45). -/
theorem stepEvent_keeps {α : Type} (f : State → α) (hraise : ∀ e, f (s.raise e) = f s)
    (hexec : ∀ i, exec i s = .next t → f t = f s) (h : stepEvent s = .next t) : f t = f s := by
  by_cases hrun : s.err = none
  · obtain ⟨e, -, rfl⟩ | ⟨i, -, hi⟩ := stepEvent_cases hrun h
    · exact hraise _
    · exact hexec i hi
  · exact Outcome.next.inj (h.symm.trans (stepEvent_of_halted hrun)) ▸ rfl

/-- What no one-byte write changes, no `Load` changes (R152). -/
theorem State.load_keeps {α : Type} (s : State) (f : State → α) (hf : ∀ t a b, f (State.memWrite t a b) = f t)
    (bytes : List Byte) : f (s.load bytes) = f s := by
  rw [State.load]
  split
  · rfl
  · exact s.storeBytes_keeps f hf _ _

@[simp] theorem State.tick_cfg (s : State) : s.tick.cfg = s.cfg := by
  rw [State.tick]
  split <;> rfl

/-- No event changes the parameters (R23 (b)). -/
theorem hostEvent_cfg {e : HostEvent} (h : hostEvent e s = .next t) : t.cfg = s.cfg := by
  cases e with
  | step =>
    exact stepEvent_keeps State.cfg (fun _ => rfl) (fun i hi => (exec_changesOnly hi .cfg (not_writes_cfg i s)).symm) h
  | tick => exact Outcome.next.inj h ▸ s.tick_cfg
  | setKeys | reset => exact Outcome.next.inj h ▸ rfl
  | load bytes => exact Outcome.next.inj h ▸ s.load_keeps State.cfg (fun _ _ _ => rfl) bytes

end Sys2Proof.Machine

open Sys2Proof.Machine

/-- Settles O13: a step is one of the five host events, and each of them keeps the invariant, which the schedule is no part
of. -/
theorem everyStepKeepsTheInvariant : Obligations.EveryStepKeepsTheInvariant := by
  intro s t hinv h
  cases hs : s.schedule with
  | nil => exact stepEvent_inv hinv (step_of_unscheduled hs ▸ h)
  | cons e rest => exact hostEvent_inv (s := { s with schedule := rest }) hinv (step_of_scheduled hs ▸ h)

/-- Settles O12: every host event answers a next state, scheduled or not. -/
theorem everyStepAnswersANextState : Obligations.EveryStepAnswersANextState := by
  intro s
  cases hs : s.schedule with
  | nil => exact step_of_unscheduled hs ▸ stepEvent_answers s
  | cons e rest => exact step_of_scheduled hs ▸ hostEvent_answers e _

/-- Settles O14: the reset state's invariant, with the default parameters and any legal ones. -/
theorem resetMeetsTheInvariant : Obligations.ResetMeetsTheInvariant :=
  ⟨State.resetWith_inv (by decide), fun _ hc => State.resetWith_inv hc⟩

/-- Settles O7: the fetched word is that of the two bytes at `PC`, and a running machine executes what it decodes to. -/
theorem stepRunsTheDecodedInstruction : Obligations.StepRunsTheDecodedInstruction := fun _ _ hs hrun hd =>
  (step_of_unscheduled hs).trans (stepEvent_of_legal hrun hd)

/-- Settles O8: the step of a scheduled event. -/
theorem scheduledEventHappensNext : Obligations.ScheduledEventHappensNext := fun _ _ _ hs => step_of_scheduled hs

/-- Settles O15: by induction on the events since the `Reset`. -/
theorem everyReachableStateMeetsTheInvariant : Obligations.EveryReachableStateMeetsTheInvariant := by
  intro c s hc hreach
  induction hreach with
  | reset => exact ⟨State.resetWith_inv hc, rfl⟩
  | event e s t _ h ih => exact ⟨hostEvent_inv ih.1 h, (hostEvent_cfg h).trans ih.2⟩

end

section
/-! PROOF. What an instruction writes depends on what it reads (R28's `r` columns): the operations, given equal arguments,
write equal values, and each instruction makes its arguments from what it reads. -/

namespace Sys2Proof.Machine

open Host (Outcome)

variable {s s' t t' : State} {it : Item}

/-! ### Equal arguments, equal values -/

/-- Going to the next word keeps what two states agree on, `PC` included. -/
theorem Item.same_advance (hpc : s.pc = s'.pc) (h : it = .pc ∨ it.same s s') : it.same s.advance s'.advance := by
  obtain rfl | h := h
  · exact congrArg (· + 2) hpc
  · cases it with
    | pc => exact congrArg (· + 2) hpc
    | _ => exact h

theorem Item.same_setV {x : Reg} {b b' : Byte} (hb : b = b') (h : it = .v x ∨ it.same s s') :
    it.same (s.setV x b) (s'.setV x b') := by
  cases it with
  | v y =>
    show (s.setV x b).getV y = (s'.setV x b').getV y
    rw [State.getV_setV, State.getV_setV]
    split
    · exact hb
    · next hy => exact h.resolve_left fun e => hy (Item.v.inj e)
  | _ => exact h.resolve_left nofun

theorem Item.same_finishFlagged (hpc : s.pc = s'.pc) {x : Reg} {r r' : Byte} {f f' : Bool} (hr : r = r') (hf : f = f')
    (h : it = .pc ∨ it = .v x ∨ it = .v flagReg) : it.same (s.finishFlagged x r f) (s'.finishFlagged x r' f') :=
  Item.same_advance hpc (h.imp_right fun h =>
    Item.same_setV (congrArg flagByte hf) (h.symm.imp_right fun h => Item.same_setV hr (.inl h)))

theorem State.skipIf_pc_congr (hpc : s.pc = s'.pc) {c c' : Bool} (hc : c = c') : (s.skipIf c).pc = (s'.skipIf c').pc := by
  rw [State.skipIf_pc, State.skipIf_pc, hpc, hc]

/-- Equal bytes stored at equal addresses are read back equal, whatever memory held (R33, R100). -/
theorem Item.same_storeBytes_index {bs bs' : List Byte} {n : Nat} (hi : s.i = s'.i) (hbs : bs = bs') (hlen : bs.length = n)
    (hn : n ≤ 4096) (h : bytesAtIndex s n it) :
    it.same (s.storeBytes s.i.toNat bs) (s'.storeBytes s'.i.toNat bs') := by
  subst hbs hlen
  obtain ⟨k, a, hk, rfl, ha⟩ := h
  have hget := List.getElem?_eq_getElem hk
  have hea : s.ea k = s'.ea k := congrArg (fun i : Addr => (i.toNat + k) % 4096) hi
  show State.memRead _ a.toNat = State.memRead _ a.toNat
  rw [ha, s.memRead_ea_storeBytes hn hget, hea, s'.memRead_ea_storeBytes hn hget]

theorem State.regsUpTo_congr {x : Reg} (h : ∀ r ≤ x, s.getV r = s'.getV r) : s.regsUpTo x = s'.regsUpTo x := by
  refine List.ext_getElem (by rw [State.length_regsUpTo, State.length_regsUpTo]) fun k hk hk' => ?_
  rw [State.getElem_regsUpTo, State.getElem_regsUpTo]
  exact h _ (Nat.le_of_lt_succ (by simpa using hk))

/-- The byte at `EA(k)` is the same where `I` and the bytes at `I` are (R100). -/
theorem State.memRead_ea_congr {n k : Nat} (hi : s.i = s'.i) (h : ∀ it, bytesAtIndex s n it → it.same s s') (hk : k < n) :
    s.memRead (s.ea k) = s'.memRead (s'.ea k) := by
  have hea : s.ea k = s'.ea k := congrArg (fun i : Addr => (i.toNat + k) % 4096) hi
  have hlt : s.ea k < 2 ^ 12 := Nat.mod_lt _ (by decide)
  rw [← hea]
  exact h (.mem (BitVec.ofNatLT (s.ea k) hlt)) ⟨k, _, hk, rfl, rfl⟩

theorem State.readBytes_index_congr {n : Nat} (hi : s.i = s'.i) (h : ∀ it, bytesAtIndex s n it → it.same s s') :
    s.readBytes s.i.toNat n = s'.readBytes s'.i.toNat n := by
  refine List.map_congr_left fun k hk => ?_
  rw [← State.memRead_ea, ← State.memRead_ea]
  exact State.memRead_ea_congr hi h (List.mem_range.1 hk)

theorem State.firstKeyDown_congr (h : ∀ k, s.keyDown k = s'.keyDown k) : s.firstKeyDown = s'.firstKeyDown := by
  rw [State.firstKeyDown, State.firstKeyDown, funext h]

theorem State.lowNibble_congr {x : Reg} (h : s.getV x = s'.getV x) : s.lowNibble x = s'.lowNibble x := by
  rw [State.lowNibble, State.lowNibble, h]

theorem State.shiftSource_congr {x y : Reg} (hcfg : s.cfg = s'.cfg)
    (h : ∀ it : Item, (if s.cfg.shiftUsesVY then it = .v y else it = .v x) → it.same s s') :
    s.shiftSource x y = s'.shiftSource x y := by
  rw [State.shiftSource, State.shiftSource, ← hcfg]
  split
  · next hvy => exact h (.v y) (by rw [if_pos hvy])
  · next hvy => exact h (.v x) (by rw [if_neg hvy])

theorem State.drawn_congr {x y : Reg} {n : Nat} (hx : s.getV x = s'.getV x) (hy : s.getV y = s'.getV y) (hi : s.i = s'.i)
    (hbytes : ∀ it, bytesAtIndex s n it → it.same s s') (hdisp : s.disp = s'.disp) : s.drawn x y n = s'.drawn x y n := by
  rw [State.drawn, State.drawn, hx, hy, hdisp, State.readBytes_index_congr hi hbytes]

/-! ### The instructions with cases or values of their own -/

/-- What an instruction writes depends only on what it reads: two states that agree on its reads are given the same value by it
in each item that it writes. The invariant serves the call alone, whose entry is there to be written. -/
structure WritesFromReads (i : Instr) : Prop where
  same : ∀ {s s' t t' : State}, s.Inv → s'.Inv → (∀ it, reads i s it → it.same s s') → exec i s = .next t →
    exec i s' = .next t' → ∀ {it}, writes i s it → it.same t t'

theorem ret_writesFromReads : WritesFromReads .ret := by
  constructor
  intro s s' t t' _ _ hreads h h' it hit
  have hsp : s.sp = s'.sp := hreads .sp (.inr (.inl rfl))
  have htop : s.stkAt (s.sp - 1) = s'.stkAt (s'.sp - 1) := hsp ▸ hreads (.stk (s.sp - 1)) (.inr (.inr rfl))
  obtain ⟨hempty, rfl⟩ | ⟨hempty, rfl⟩ := exec_ret_cases h
  · obtain rfl := Outcome.next.inj (h'.symm.trans (exec_ret_of_empty s' (hsp ▸ hempty)))
    obtain rfl : it = .err := by simpa only [writes, hempty, if_true] using hit
    rfl
  · obtain rfl := Outcome.next.inj (h'.symm.trans (exec_ret_of_nonempty s' (hsp ▸ hempty)))
    obtain rfl | rfl : it = .pc ∨ it = .sp := by simpa only [writes, hempty, if_false] using hit
    · exact htop
    · exact congrArg (· - 1) hsp

theorem call_writesFromReads (nnn : Addr) : WritesFromReads (.call nnn) := by
  constructor
  intro s s' t t' ⟨_, hle, hlen, _⟩ ⟨_, hle', hlen', _⟩ hreads h h' it hit
  have hpc : s.pc = s'.pc := hreads .pc (.inl rfl)
  have hsp : s.sp = s'.sp := hreads .sp (.inr (.inl rfl))
  have hcfg : s.cfg = s'.cfg := hreads .cfg (.inr (.inr rfl))
  obtain ⟨hfull, rfl⟩ | ⟨hfull, rfl⟩ := exec_call_cases h
  · obtain rfl := Outcome.next.inj (h'.symm.trans (exec_call_of_full s' nnn (hsp ▸ hcfg ▸ hfull)))
    obtain rfl : it = .err := by simpa only [writes, hfull, if_true] using hit
    rfl
  · have hfull' : s'.sp ≠ s'.cfg.stackDepth := hsp ▸ hcfg ▸ hfull
    obtain rfl := Outcome.next.inj (h'.symm.trans (exec_call_of_room s' nnn hfull'))
    obtain rfl | rfl | rfl : it = .pc ∨ it = .sp ∨ it = .stk s.sp := by simpa only [writes, hfull, if_false] using hit
    · rfl
    · exact congrArg (· + 1) hsp
    · show (s.push s.nextPc).stkAt s.sp = (s'.push s'.nextPc).stkAt s.sp
      rw [State.stkAt_push _ _ _ (by omega), State.stkAt_push _ _ _ (by omega), if_pos rfl, if_pos hsp]
      exact congrArg (· + 2) hpc

theorem drw_writesFromReads (x y : Reg) (n : Nat) : WritesFromReads (.drw x y n) := by
  constructor
  intro s s' t t' _ _ hreads h h' it hit
  have hx : s.getV x = s'.getV x := hreads (.v x) (.inr (.inl rfl))
  have hy : s.getV y = s'.getV y := hreads (.v y) (.inr (.inr (.inl rfl)))
  have hi : s.i = s'.i := hreads .i (.inr (.inr (.inr (.inl rfl))))
  have hdisp : s.disp = s'.disp := Display.ext_pixel fun px py =>
    hreads (.disp px py) (.inr (.inr (.inr (.inr (.inr ⟨px, py, rfl⟩)))))
  have hdrawn : s.drawn x y n = s'.drawn x y n :=
    State.drawn_congr hx hy hi (fun it e => hreads it (.inr (.inr (.inr (.inr (.inl e)))))) hdisp
  obtain rfl := Outcome.next.inj h
  obtain rfl := Outcome.next.inj h'
  refine Item.same_advance (hreads .pc (.inl rfl))
    (hit.imp_right fun e => Item.same_setV (by rw [hdrawn]) (e.imp_right ?_))
  rintro ⟨px, py, rfl⟩
  exact congrArg (fun d => d.1.pixel px py) hdrawn

theorem ldVxK_writesFromReads (x : Reg) : WritesFromReads (.ldVxK x) := by
  constructor
  intro s s' t t' _ _ hreads h h' it ⟨hsome, hit⟩
  have hkeys : s.firstKeyDown = s'.firstKeyDown := State.firstKeyDown_congr fun k => hreads (.key k) (.inr ⟨k, rfl⟩)
  obtain ⟨k, hk⟩ := Option.ne_none_iff_exists'.1 hsome
  obtain rfl := Outcome.next.inj (h.symm.trans (exec_ldVxK_of_some s x hk))
  obtain rfl := Outcome.next.inj (h'.symm.trans (exec_ldVxK_of_some s' x (hkeys ▸ hk)))
  exact Item.same_advance (hreads .pc (.inl rfl)) (hit.imp_right fun e => Item.same_setV rfl (.inl e))

theorem addI_writesFromReads (x : Reg) : WritesFromReads (.addI x) := by
  constructor
  intro s s' t t' _ _ hreads h h' it hit
  have hpc : s.pc = s'.pc := hreads .pc (.inl rfl)
  have hx : s.getV x = s'.getV x := hreads (.v x) (.inr (.inl rfl))
  have hi : s.i = s'.i := hreads .i (.inr (.inr (.inl rfl)))
  have hcfg : s.cfg = s'.cfg := hreads .cfg (.inr (.inr (.inr rfl)))
  have hindex : (s.indexed x).i = (s'.indexed x).i := congrArg₂ (fun i b => BitVec.ofNat 12 (exactIndexSum i b)) hi hx
  obtain ⟨hflag, rfl⟩ | ⟨hflag, rfl⟩ := exec_addI_cases h
  · obtain rfl := Outcome.next.inj (h'.symm.trans (exec_addI_of_flag s' x (hcfg ▸ hflag)))
    refine Item.same_advance hpc (hit.imp_right fun e => Item.same_setV (by rw [hi, hx]) ?_)
    exact e.symm.imp And.right fun (e : it = .i) => e ▸ hindex
  · obtain rfl := Outcome.next.inj (h'.symm.trans (exec_addI_of_no_flag s' x (hcfg ▸ hflag)))
    refine Item.same_advance hpc (hit.imp_right fun e => ?_)
    obtain rfl : it = .i := e.resolve_right fun hf => Bool.false_ne_true (hflag.symm.trans hf.1)
    exact hindex

theorem rnd_writesFromReads (x : Reg) (nn : Byte) : WritesFromReads (.rnd x nn) := by
  constructor
  intro s s' t t' _ _ hreads h h' it hit
  have hdraws : s.draws = s'.draws := hreads .draws (.inr rfl)
  obtain rfl := Outcome.next.inj h
  obtain rfl := Outcome.next.inj h'
  obtain rfl | rfl | rfl := hit
  · exact congrArg (· + 2) (hreads .pc (.inl rfl))
  · refine Eq.trans (s.getV_advance_setV_same x _) (Eq.trans ?_ (s'.getV_advance_setV_same x _).symm)
    rw [hdraws]
  · exact congrArg (· + 1) hdraws

theorem loadRegs_writesFromReads (x : Reg) : WritesFromReads (.loadRegs x) := by
  constructor
  intro s s' t t' _ _ hreads h h' it hit
  have hi : s.i = s'.i := hreads .i (.inr (.inl rfl))
  obtain rfl := Outcome.next.inj h
  obtain rfl := Outcome.next.inj h'
  have hpc : (s.loadFirst (x.val + 1)).pc = (s'.loadFirst (x.val + 1)).pc := by
    rw [State.loadFirst_pc, State.loadFirst_pc]
    exact hreads .pc (.inl rfl)
  refine Item.same_advance hpc (hit.imp_right ?_)
  rintro ⟨r, hr, rfl⟩
  show (s.loadFirst (x.val + 1)).getV r = (s'.loadFirst (x.val + 1)).getV r
  have hlt : r.val < x.val + 1 := Nat.lt_succ_of_le hr
  rw [State.getV_loadFirst, State.getV_loadFirst, if_pos hlt, if_pos hlt]
  exact State.memRead_ea_congr hi (fun it e => hreads it (.inr (.inr e))) hlt

/-! ### Every instruction -/

/-- For an instruction without cases it is enough to look at the one state it answers. -/
theorem writesFromReads_of_next {i : Instr} {f : State → State} (hexec : ∀ s, exec i s = .next (f s))
    (hsame : ∀ s s', s.pc = s'.pc → (∀ it, reads i s it → it.same s s') → ∀ it, writes i s it → it.same (f s) (f s')) :
    WritesFromReads i := by
  constructor
  intro s s' t t' _ _ hreads h h' it hit
  obtain rfl := Outcome.next.inj ((hexec s).symm.trans h)
  obtain rfl := Outcome.next.inj ((hexec s').symm.trans h')
  exact hsame s s' (hreads .pc (.inl rfl)) hreads it hit

/-- A skip decides by what it reads (R65). -/
theorem skip_writesFromReads {i : Instr} {c : State → Bool} (hexec : ∀ s, exec i s = .next (s.skipIf (c s)))
    (hwrites : ∀ s it, writes i s it → it = .pc) (hc : ∀ s s', (∀ it, reads i s it → it.same s s') → c s = c s') :
    WritesFromReads i :=
  writesFromReads_of_next hexec fun s s' hpc hreads it hit =>
    hwrites s it hit ▸ State.skipIf_pc_congr hpc (hc s s' hreads)

/-- An instruction with one destination register gives it a value made from what it reads (R82 to R87, R123). -/
theorem setV_writesFromReads {i : Instr} {x : Reg} {b : State → Byte}
    (hexec : ∀ s, exec i s = .next (s.setV x (b s)).advance) (hwrites : ∀ s it, writes i s it → it = .pc ∨ it = .v x)
    (hb : ∀ s s', (∀ it, reads i s it → it.same s s') → b s = b s') : WritesFromReads i :=
  writesFromReads_of_next hexec fun s s' hpc hreads it hit =>
    Item.same_advance hpc ((hwrites s it hit).imp_right fun e => Item.same_setV (hb s s' hreads) (.inl e))

/-- A flag-writing instruction makes its result and its flag from what it reads (R81). -/
theorem finishFlagged_writesFromReads {i : Instr} {x : Reg} {r : State → Byte} {f : State → Bool}
    (hexec : ∀ s, exec i s = .next (s.finishFlagged x (r s) (f s)))
    (hwrites : ∀ s it, writes i s it → it = .pc ∨ it = .v x ∨ it = .v flagReg)
    (hrf : ∀ s s', (∀ it, reads i s it → it.same s s') → r s = r s' ∧ f s = f s') : WritesFromReads i :=
  writesFromReads_of_next hexec fun s s' hpc hreads it hit =>
    Item.same_finishFlagged hpc (hrf s s' hreads).1 (hrf s s' hreads).2 (hwrites s it hit)

/-- Each kind of instruction, with the arguments it makes from what it reads. -/
theorem exec_writesFromReads (i : Instr) : WritesFromReads i := by
  cases i with
  | ret => exact ret_writesFromReads
  | call nnn => exact call_writesFromReads nnn
  | rnd x nn => exact rnd_writesFromReads x nn
  | drw x y n => exact drw_writesFromReads x y n
  | ldVxK x => exact ldVxK_writesFromReads x
  | addI x => exact addI_writesFromReads x
  | loadRegs x => exact loadRegs_writesFromReads x
  | cls =>
    exact writesFromReads_of_next (fun _ => rfl) fun _ _ hpc _ _ hit =>
      Item.same_advance hpc (hit.imp_right fun ⟨_, _, e⟩ => e ▸ rfl)
  | jp nnn => exact writesFromReads_of_next (fun _ => rfl) fun _ _ _ _ _ (hit : _ = Item.pc) => hit ▸ rfl
  | jpV0 nnn =>
    refine writesFromReads_of_next (fun _ => rfl) fun s s' _ hreads _ (hit : _ = Item.pc) => hit ▸ ?_
    exact congrArg (fun b : Byte => nnn + b.setWidth 12) (hreads (.v 0) (.inr rfl))
  | seImm x | sneImm x =>
    refine skip_writesFromReads (fun _ => rfl) (fun _ _ hit => hit) fun s s' hreads => ?_
    have hx : s.getV x = s'.getV x := hreads (.v x) (.inr rfl)
    rw [hx]
  | seReg x y | sneReg x y =>
    refine skip_writesFromReads (fun _ => rfl) (fun _ _ hit => hit) fun s s' hreads => ?_
    have hx : s.getV x = s'.getV x := hreads (.v x) (.inr (.inl rfl))
    have hy : s.getV y = s'.getV y := hreads (.v y) (.inr (.inr rfl))
    rw [hx, hy]
  | skp x | sknp x =>
    refine skip_writesFromReads (fun _ => rfl) (fun _ _ hit => hit) fun s s' hreads => ?_
    have hx : s.getV x = s'.getV x := hreads (.v x) (.inr (.inl rfl))
    have hkey : s.keyDown (s.lowNibble x) = s'.keyDown (s.lowNibble x) := hreads (.key _) (.inr (.inr rfl))
    rw [hkey, State.lowNibble_congr hx]
  | ldImm x nn => exact setV_writesFromReads (fun _ => rfl) (fun _ _ hit => hit) fun _ _ _ => rfl
  | addImm x nn =>
    refine setV_writesFromReads (fun _ => rfl) (fun _ _ hit => hit) fun s s' hreads => ?_
    have hx : s.getV x = s'.getV x := hreads (.v x) (.inr rfl)
    rw [hx]
  | ldReg x y =>
    exact setV_writesFromReads (fun _ => rfl) (fun _ _ hit => hit) fun _ _ hreads => hreads (.v y) (.inr rfl)
  | orReg x y | andReg x y | xorReg x y =>
    refine setV_writesFromReads (fun _ => rfl) (fun _ _ hit => hit) fun s s' hreads => ?_
    have hx : s.getV x = s'.getV x := hreads (.v x) (.inr (.inl rfl))
    have hy : s.getV y = s'.getV y := hreads (.v y) (.inr (.inr rfl))
    rw [hx, hy]
  | ldVxDT x => exact setV_writesFromReads (fun _ => rfl) (fun _ _ hit => hit) fun _ _ hreads => hreads .dt (.inr rfl)
  | addReg x y | subReg x y | subnReg x y =>
    refine finishFlagged_writesFromReads (fun _ => rfl) (fun _ _ hit => hit) fun s s' hreads => ?_
    have hx : s.getV x = s'.getV x := hreads (.v x) (.inr (.inl rfl))
    have hy : s.getV y = s'.getV y := hreads (.v y) (.inr (.inr rfl))
    rw [hx, hy]
    exact ⟨rfl, rfl⟩
  | shrReg x y | shlReg x y =>
    refine finishFlagged_writesFromReads (fun _ => rfl) (fun _ _ hit => hit) fun s s' hreads => ?_
    have hsrc : s.shiftSource x y = s'.shiftSource x y :=
      State.shiftSource_congr (hreads .cfg (.inr (.inl rfl))) fun it e => hreads it (.inr (.inr e))
    rw [hsrc]
    exact ⟨rfl, rfl⟩
  | ldDTVx x | ldSTVx x =>
    refine writesFromReads_of_next (fun _ => rfl) fun s s' hpc hreads it hit => ?_
    obtain rfl | rfl := hit
    · exact congrArg (· + 2) hpc
    · exact hreads (.v x) (.inr rfl)
  | ldI nnn =>
    refine writesFromReads_of_next (fun _ => rfl) fun s s' hpc _ it hit => ?_
    obtain rfl | rfl := hit
    · exact congrArg (· + 2) hpc
    · rfl
  | ldF x =>
    refine writesFromReads_of_next (fun _ => rfl) fun s s' hpc hreads it hit => ?_
    obtain rfl | rfl := hit
    · exact congrArg (· + 2) hpc
    · exact congrArg₂ glyphAddr (hreads .cfg (.inr (.inr rfl))) (State.lowNibble_congr (hreads (.v x) (.inr (.inl rfl))))
  | ldB x =>
    refine writesFromReads_of_next (fun _ => rfl) fun s s' hpc hreads it hit => ?_
    have hx : s.getV x = s'.getV x := hreads (.v x) (.inr (.inl rfl))
    have hi : s.i = s'.i := hreads .i (.inr (.inr rfl))
    exact Item.same_advance (by simpa using hpc) (hit.imp_right fun e =>
      Item.same_storeBytes_index hi (by rw [hx]) (length_bcdDigits _) (by decide) e)
  | storeRegs x =>
    refine writesFromReads_of_next (fun _ => rfl) fun s s' hpc hreads it hit => ?_
    have hi : s.i = s'.i := hreads .i (.inr (.inl rfl))
    have hregs : s.regsUpTo x = s'.regsUpTo x := State.regsUpTo_congr fun r hr => hreads (.v r) (.inr (.inr ⟨r, hr, rfl⟩))
    exact Item.same_advance (by simpa using hpc) (hit.imp_right fun e =>
      Item.same_storeBytes_index hi hregs (s.length_regsUpTo x) (by omega) e)

end Sys2Proof.Machine

open Sys2Proof.Machine

/-- Settles O20: each kind of instruction makes what it writes from what it reads. -/
theorem instructionsDependOnlyOnWhatTheMatrixSays : Obligations.InstructionsDependOnlyOnWhatTheMatrixSays :=
  fun i _ _ _ _ hinv hinv' hreads h h' _ hit => (exec_writesFromReads i).same hinv hinv' hreads h h' hit

end

section
/-! PROOF. The timers, the error halt and `Reset` (R137, R142, R143, R150). -/

namespace Sys2Proof.Machine

open Host (Outcome)

theorem toNat_decremented (b : Byte) : (decremented b).toNat = b.toNat - 1 := by
  rw [decremented]
  split
  · next hpos => exact BitVec.toNat_sub_of_le (BitVec.le_def.2 hpos)
  · next hzero => omega

variable {s : State}

theorem State.tick_of_halted (h : s.err ≠ none) : s.tick = s := if_pos (Option.isSome_iff_ne_none.2 h)

theorem State.tick_of_running (h : s.err = none) :
    s.tick = { s with dt := decremented s.dt, st := decremented s.st } := by
  simp [State.tick, State.halted, h]

variable (s)

theorem State.tick_changesOnly : ChangesOnly (among [.dt, .st]) s s.tick := by
  by_cases hrun : s.err = none
  · rw [State.tick_of_running hrun]
    intro it hit
    cases it with
    | dt => exact absurd List.mem_cons_self hit
    | st => exact absurd (List.mem_cons_of_mem _ List.mem_cons_self) hit
    | _ => rfl
  · rw [State.tick_of_halted hrun]
    exact ChangesOnly.refl _ s

@[simp] theorem State.tick_err : s.tick.err = s.err := (s.tick_changesOnly .err (by simp [among])).symm

@[simp] theorem State.load_err (bytes : List Byte) : (s.load bytes).err = s.err :=
  s.load_keeps State.err (fun _ _ _ => rfl) bytes

theorem stepReport_of_halted (h : s.err ≠ none) : stepReport s = .halted := if_pos (Option.isSome_iff_ne_none.2 h)

/-! ### The reset contents of memory -/

theorem Config.resetByte_font (c : Config) {k : Nat} (hk : k < c.fontTable.length) :
    c.resetByte (c.fontBase.toNat + k) = c.fontTable[k] := by
  rw [Config.resetByte, if_pos (Nat.le_add_right _ _), Nat.add_sub_cancel_left, List.getD_eq_getElem _ _ hk]

theorem Config.resetByte_other {c : Config} {a : Nat}
    (h : a < c.fontBase.toNat ∨ c.fontBase.toNat + c.fontTable.length ≤ a) : c.resetByte a = 0 := by
  rw [Config.resetByte]
  split
  · exact List.getD_eq_default _ _ (by omega)
  · rfl

/-- After a `Reset` an address reads as its reset contents (R150). -/
theorem State.memRead_resetEvent {a : Nat} (ha : a < 4096) : s.resetEvent.memRead a = s.cfg.resetByte a :=
  congrArg s.cfg.resetByte (Nat.mod_eq_of_lt ha)

end Sys2Proof.Machine

open Sys2Proof Sys2Proof.Machine

/-- Settles O27: the two forms of `Tick`, by whether the machine is halted. -/
theorem tickDecrementsBothTimers : Obligations.TickDecrementsBothTimers := by
  refine fun s => ⟨s.tick, rfl, State.tick_of_halted, fun hrun => ⟨?_, ?_, s.tick_changesOnly⟩⟩
  all_goals
    rw [State.tick_of_running hrun, toNat_decremented]
    split <;> omega

/-- Settles O28: by induction on the ticks, each of which takes one off. -/
theorem timersAfterManyTicks : Obligations.TimersAfterManyTicks := by
  intro n
  induction n with
  | zero => exact fun s _ => ⟨rfl, rfl, ChangesOnly.refl _ s⟩
  | succ n ih =>
    intro s hrun
    obtain ⟨hdt, hst, hframe⟩ := ih s.tick (s.tick_err.trans hrun)
    rw [Function.iterate_succ_apply, hdt, hst]
    refine ⟨?_, ?_, (s.tick_changesOnly.trans hframe).mono fun it => Or.rec id id⟩
    all_goals
      rw [State.tick_of_running hrun, toNat_decremented]
      omega

/-- Settles O11: a halted `Step` and `Tick` leave the state, and no operation of an event but `Reset` writes `ERR`. -/
theorem onlyResetLeavesTheErrorHalt : Obligations.OnlyResetLeavesTheErrorHalt := by
  intro s hhalt
  have hstep := stepEvent_of_halted hhalt
  have htick := State.tick_of_halted hhalt
  refine ⟨hstep, congrArg _ htick, stepReport_of_halted s hhalt, fun e t hne h => ?_, _, rfl, rfl⟩
  cases e with
  | step => exact Host.Outcome.next.inj (hstep.symm.trans h) ▸ rfl
  | tick => exact Host.Outcome.next.inj h ▸ s.tick_err
  | setKeys k => exact Host.Outcome.next.inj h ▸ rfl
  | load bytes => exact Host.Outcome.next.inj h ▸ s.load_err bytes
  | reset => exact absurd rfl hne

/-- Settles O16: the reset state item by item; memory reads as its reset contents, the font inside the 80 bytes at `FONT_BASE`
and zero outside them. -/
theorem resetSetsEveryItem : Obligations.ResetSetsEveryItem := by
  intro s ⟨_, hlen, hbase⟩
  refine ⟨s.resetEvent, rfl, rfl, fun x => ?_, rfl, rfl, fun k => ?_, rfl, rfl, rfl, Display.pixel_dark, fun k => ?_,
    fun k hk => ?_, fun a ha hout => ?_, rfl⟩
  · exact Vector.getElem_replicate x.isLt
  · exact List.getD_eq_getElem?_getD.trans (List.getElem?_getD_replicate_default_eq _ _ k)
  · exact Vector.getElem_replicate k.isLt
  · rw [State.memRead_resetEvent s (by omega), Config.resetByte_font s.cfg hk]
  · rw [State.memRead_resetEvent s ha, Config.resetByte_other (hlen ▸ hout)]

/-- Settles O6: the word of two bytes as a number, each byte read at its reduced address. -/
theorem fetchIsBigEndianAndWraps : Obligations.FetchIsBigEndianAndWraps := by
  refine ⟨fun s addr => ?_, fun _ => rfl⟩
  rw [State.memRead16, toNat_wordOfBytes, State.memRead_mod, State.memRead_mod, Nat.mul_comm]

end

section
/-! PROOF. The keys: which key an `FX0A` finds, and the wait (R126, R27). -/

namespace Sys2Proof.Machine

variable (s : State)

theorem State.firstKeyDown_eq_none_iff : s.firstKeyDown = none ↔ ∀ k, s.keyDown k = false := by
  simp [State.firstKeyDown, List.find?_eq_none]

variable {s}

/-- The key found is the least one that is down (R126). -/
theorem State.firstKeyDown_of_least {k : Fin 16} (hk : s.keyDown k = true) (hleast : ∀ j, j < k → s.keyDown j = false) :
    s.firstKeyDown = some k := by
  refine List.find?_eq_some_iff_getElem.2 ⟨hk, k.val, by simp, by simp, fun j hj => ?_⟩
  simpa using hleast ⟨j, hj.trans k.isLt⟩ hj

/-- The number of a key fits in a byte. -/
theorem toNat_ofNat_key (k : Fin 16) : (BitVec.ofNat 8 k.val).toNat = k.val :=
  Nat.mod_eq_of_lt (k.isLt.trans (by decide))

end Sys2Proof.Machine

open Sys2Proof Sys2Proof.Machine

/-- Settles O58: the word is `FX0A`'s, and its two ends by whether a key is down. -/
theorem waitForKeyDeliversTheLeastKeyDown : Obligations.WaitForKeyDeliversTheLeastKeyDown := by
  refine fun s x => ⟨decode_majorF (i := .ldVxK x) 0x0A rfl rfl,
    fun hup => exec_ldVxK_of_none s x (s.firstKeyDown_eq_none_iff.2 hup), fun k hk hleast => ?_⟩
  refine ⟨_, exec_ldVxK_of_some s x (State.firstKeyDown_of_least hk hleast), ?_, State.toNat_advance_pc _,
    s.advance_setV_changesRegs x _⟩
  rw [State.getV_advance_setV_same, toNat_ofNat_key]

end

section
/-! PROOF. What a `Step` reports, where it leaves `PC`, and which running states it leaves as they are (R9, R15, R138, R163). -/

namespace Sys2Proof.Machine

open Host (Outcome)

variable {s t : State}

/-! ### Reports -/

theorem stepReport_of_illegal {e : IllegalWord} (hrun : s.err = none) (hd : decode s.fetchWord = .error e) :
    stepReport s = .error .decodeError s.pc s.fetchWord := by
  simp [stepReport, State.halted, hrun, hd]

theorem stepReport_of_empty (hrun : s.err = none) (hd : decode s.fetchWord = .ok .ret) (hempty : s.sp = 0) :
    stepReport s = .error .stackUnderflow s.pc s.fetchWord := by
  simp [stepReport, State.halted, hrun, hd, hempty]

theorem stepReport_of_full {nnn : Addr} (hrun : s.err = none) (hd : decode s.fetchWord = .ok (.call nnn))
    (hfull : s.sp = s.cfg.stackDepth) : stepReport s = .error .stackOverflow s.pc s.fetchWord := by
  simp [stepReport, State.halted, hrun, hd, hfull]

theorem stepReport_of_wait {x : Reg} (hrun : s.err = none) (hd : decode s.fetchWord = .ok (.ldVxK x))
    (hup : ∀ k, s.keyDown k = false) : stepReport s = .waitingKey := by
  simp [stepReport, State.halted, hrun, hd, s.firstKeyDown_eq_none_iff.2 hup]

/-- An instruction that neither raises nor waits is reported as done (R138). -/
theorem stepReport_of_done {i : Instr} (hrun : s.err = none) (hd : decode s.fetchWord = .ok i) (hret : i = .ret → s.sp ≠ 0)
    (hcall : ∀ nnn, i = .call nnn → s.sp ≠ s.cfg.stackDepth)
    (hkey : ∀ x, i = .ldVxK x → ¬ ∀ k, s.keyDown k = false) : stepReport s = .ok := by
  cases i with
  | ret => simp [stepReport, State.halted, hrun, hd, hret rfl]
  | call nnn => simp [stepReport, State.halted, hrun, hd, hcall nnn rfl]
  | ldVxK x => simp [stepReport, State.halted, hrun, hd, mt s.firstKeyDown_eq_none_iff.1 (hkey x rfl)]
  | _ => simp [stepReport, State.halted, hrun, hd]

theorem StepReport.error_eq_iff {e e' : StepError} {a a' : Addr} {op op' : OpWord} :
    StepReport.error e a op = .error e' a' op' ↔ some e = some e' ∧ a' = a ∧ op' = op :=
  ⟨fun | rfl => ⟨rfl, rfl, rfl⟩, fun | ⟨rfl, rfl, rfl⟩ => rfl⟩

/-- The three ends of a `Step` of a running machine, each with its report: an error, the key wait, and everything else (R9,
R138). -/
theorem stepReport_cases (hrun : s.err = none) (h : stepEvent s = .next t) :
    (∃ e, t = s.raise e ∧ stepReport s = .error e s.pc s.fetchWord ∧ ∀ x, decode s.fetchWord ≠ .ok (.ldVxK x)) ∨
    (t = s ∧ stepReport s = .waitingKey ∧ (∃ x, decode s.fetchWord = .ok (.ldVxK x)) ∧ ∀ k, s.keyDown k = false) ∨
    (t.err = none ∧ stepReport s = .ok ∧ ¬ ((∃ x, decode s.fetchWord = .ok (.ldVxK x)) ∧ ∀ k, s.keyDown k = false)) := by
  obtain ⟨e, hd, rfl⟩ | ⟨i, hd, hexec⟩ := stepEvent_cases hrun h
  · exact .inl ⟨_, rfl, stepReport_of_illegal hrun hd, by simp [hd]⟩
  obtain ⟨rfl, hempty, rfl⟩ | ⟨nnn, rfl, hfull, rfl⟩ | ⟨hret, hcall, hkeep⟩ := exec_err_cases hexec
  · exact .inl ⟨_, rfl, stepReport_of_empty hrun hd hempty, by simp [hd]⟩
  · exact .inl ⟨_, rfl, stepReport_of_full hrun hd hfull, by simp [hd]⟩
  by_cases hwait : (∃ x, i = .ldVxK x) ∧ ∀ k, s.keyDown k = false
  · obtain ⟨⟨x, rfl⟩, hup⟩ := hwait
    obtain rfl := Outcome.next.inj (hexec.symm.trans (exec_ldVxK_of_none s x (s.firstKeyDown_eq_none_iff.2 hup)))
    exact .inr (.inl ⟨rfl, stepReport_of_wait hrun hd hup, ⟨x, hd⟩, hup⟩)
  · exact .inr (.inr ⟨hkeep.trans hrun, stepReport_of_done hrun hd hret hcall fun x hx hup => hwait ⟨⟨x, hx⟩, hup⟩,
      by simpa [hd] using hwait⟩)

/-! ### `PC` -/

/-- The target of `BNNN` (R73). -/
theorem toNat_add_setWidth (nnn : Addr) (b : Byte) : (nnn + b.setWidth 12).toNat = (nnn.toNat + b.toNat) % 4096 := by
  rw [BitVec.toNat_add, BitVec.toNat_setWidth_of_le (by decide)]

/-- A skip on a negated condition (R122). -/
theorem State.toNat_skipIf_not_pc (s : State) (c : Bool) :
    (s.skipIf !c).pc.toNat = (s.pc.toNat + if c = true then 2 else 4) % 4096 := by
  cases c <;> exact s.toNat_skipIf_pc _

/-- A return moves `SP` or raises (R66). -/
theorem exec_ret_moves (hrun : s.err = none) : exec .ret s ≠ .next s := by
  intro h
  obtain ⟨-, hs⟩ | ⟨hsp, hs⟩ := exec_ret_cases h
  · cases hrun.symm.trans (congrArg State.err hs)
  · have : s.sp = s.sp - 1 := congrArg State.sp hs
    omega

/-- A call moves `SP` or raises (R68). -/
theorem exec_call_moves (nnn : Addr) (hrun : s.err = none) : exec (.call nnn) s ≠ .next s := by
  intro h
  obtain ⟨-, hs⟩ | ⟨-, hs⟩ := exec_call_cases h
  · cases hrun.symm.trans (congrArg State.err hs)
  · have : s.sp = s.sp + 1 := congrArg State.sp hs
    omega

theorem State.pc_ne_add_two (s : State) : s.pc.toNat ≠ (s.pc.toNat + 2) % 4096 := by
  have := s.pc.isLt
  omega

end Sys2Proof.Machine

open Sys2Proof Sys2Proof.Machine

/-- Settles O17: the halted machine, and the three ends of a `Step` of a running one, each with its report. -/
theorem stepReportTellsTheOutcome : Obligations.StepReportTellsTheOutcome := by
  intro s t h
  by_cases hrun : s.err = none
  · obtain ⟨e, rfl, hreport, hnokey⟩ | ⟨rfl, hreport, hkey, hup⟩ | ⟨herr, hreport, hnowait⟩ := stepReport_cases hrun h
    · simp only [hreport, StepReport.error_eq_iff]
      simp [hrun, hnokey]
    · simp [hreport, hrun, hkey, hup]
    · simp only [hreport, hrun, herr, hnowait]
      simp
  · obtain rfl := Host.Outcome.next.inj (h.symm.trans (stepEvent_of_halted hrun))
    simp [stepReport_of_halted _ hrun, hrun]

/-- Settles O18: an error leaves `PC`, and every other instruction is looked at by its kind. -/
theorem everyStepLeavesPcAsItsKindSays : Obligations.EveryStepLeavesPcAsItsKindSays := by
  intro s t i hrun hd h
  have hexec : exec i s = .next t := (stepEvent_of_legal hrun hd).symm.trans h
  constructor
  · intro herr
    obtain ⟨-, -, rfl⟩ | ⟨_, -, -, rfl⟩ | ⟨-, -, hkeep⟩ := exec_err_cases hexec
    · rfl
    · rfl
    · exact absurd (hkeep.trans hrun) herr
  intro herr
  cases i with
  | ret =>
    obtain ⟨-, rfl⟩ | ⟨-, rfl⟩ := exec_ret_cases hexec
    · cases herr
    · rfl
  | call nnn =>
    obtain ⟨-, rfl⟩ | ⟨-, rfl⟩ := exec_call_cases hexec
    · cases herr
    · rfl
  | jp nnn => exact Host.Outcome.next.inj hexec ▸ rfl
  | jpV0 nnn => exact Host.Outcome.next.inj hexec ▸ toNat_add_setWidth nnn _
  | seImm | seReg =>
    obtain rfl := Host.Outcome.next.inj hexec
    simp only [State.toNat_skipIf_pc, beq_iff_eq]
  | sneImm | sneReg =>
    obtain rfl := Host.Outcome.next.inj hexec
    simp only [State.toNat_skipIf_pc, bne_iff_ne, ne_eq, ite_not]
  | skp x => exact Host.Outcome.next.inj hexec ▸ s.toNat_skipIf_pc _
  | sknp x => exact Host.Outcome.next.inj hexec ▸ s.toNat_skipIf_not_pc _
  | ldVxK x =>
    obtain ⟨hkey, rfl⟩ | ⟨k, hkey, rfl⟩ := exec_ldVxK_cases hexec
    · exact (if_pos (s.firstKeyDown_eq_none_iff.1 hkey)).mpr rfl
    · have hdown : ¬ ∀ k, s.keyDown k = false := fun hup => by
        cases hkey.symm.trans (s.firstKeyDown_eq_none_iff.2 hup)
      exact (if_neg hdown).mpr (State.toNat_advance_pc _)
  | addI x =>
    obtain ⟨-, rfl⟩ | ⟨-, rfl⟩ := exec_addI_cases hexec <;> exact State.toNat_advance_pc _
  | ldB | storeRegs | loadRegs =>
    obtain rfl := Host.Outcome.next.inj hexec
    simp [BitVec.toNat_add]
  | _ => exact Host.Outcome.next.inj hexec ▸ State.toNat_advance_pc _

/-- Settles O26: a `Step` that changes nothing leaves `PC`, `SP` and `ERR`, which shuts out every other instruction; and each of
the three forms changes nothing. -/
theorem stuckStatesAreSelfJumpsAndKeyWaits : Obligations.StuckStatesAreSelfJumpsAndKeyWaits := by
  intro s hrun
  constructor
  · intro h
    obtain ⟨e, -, hraise⟩ | ⟨i, hd, hexec⟩ := stepEvent_cases hrun h
    · cases hrun.symm.trans (congrArg State.err hraise)
    have hpc := (everyStepLeavesPcAsItsKindSays s s i hrun hd h).2 hrun
    have hne := s.pc_ne_add_two
    cases i with
    | jp nnn =>
      obtain rfl : s.pc = nnn := hpc
      exact .inl hd
    | jpV0 nnn => exact .inr (.inl ⟨nnn, hd, hpc.symm⟩)
    | ldVxK x =>
      by_cases hup : ∀ k, s.keyDown k = false
      · exact .inr (.inr ⟨⟨x, hd⟩, hup⟩)
      · exact absurd ((if_neg hup).mp hpc) hne
    | ret => exact absurd hexec (exec_ret_moves hrun)
    | call nnn => exact absurd hexec (exec_call_moves nnn hrun)
    | seImm | sneImm | seReg | sneReg | skp | sknp =>
      simp only at hpc
      split at hpc <;> omega
    | _ => exact absurd hpc hne
  · rintro (hd | ⟨nnn, hd, htarget⟩ | ⟨⟨x, hd⟩, hup⟩)
    · exact stepEvent_of_legal hrun hd
    · have hpc : nnn + (s.getV 0).setWidth 12 = s.pc := BitVec.eq_of_toNat_eq ((toNat_add_setWidth _ _).trans htarget)
      refine (stepEvent_of_legal hrun hd).trans (congrArg Host.Outcome.next ?_)
      rw [hpc]
      rfl
    · exact (stepEvent_of_legal hrun hd).trans (exec_ldVxK_of_none s x (s.firstKeyDown_eq_none_iff.2 hup))

end

section
/-! PROOF. Two events in a row, and single events of the host: the key wait, call and return, `Load`, and what changes `DT` (R27,
R74, R152, R17). -/

namespace Sys2Proof.Machine

open Host (Outcome)

variable {s t : State}

/-- A `Tick` leaves what the next fetch reads (R142). -/
theorem State.tick_fetchWord (s : State) : s.tick.fetchWord = s.fetchWord := by
  rw [State.tick]
  split <;> rfl

/-- An item that is as it was need not be named. -/
theorem ChangesOnly.drop {p q : Item → Prop} (h : ChangesOnly p s t) (it : Item) (hsame : it.same s t)
    (hpq : ∀ it', p it' → it' = it ∨ q it') : ChangesOnly q s t := by
  intro it' hit'
  by_cases hp : p it'
  · obtain rfl := (hpq it' hp).resolve_right hit'
    exact hsame
  · exact h it' hp

/-- Of all instructions only `FX15` may write `DT` (R28). -/
theorem eq_ldDTVx_of_writes_dt {i : Instr} (h : writes i s .dt) : ∃ x, i = .ldDTVx x := by
  cases i with
  | ldDTVx x => exact ⟨x, rfl⟩
  | _ => simp [writes, bytesAtIndex, regsTo, wholeDisplay] at h

end Sys2Proof.Machine

open Sys2Proof Sys2Proof.Machine

/-- Settles O31: the wait as the instruction with no key down, which a `Tick` leaves; with one key down it is the least one. -/
theorem keyWaitEndsWithTheKey : Obligations.KeyWaitEndsWithTheKey := by
  intro s x hrun hd hup
  refine ⟨(stepEvent_of_legal hrun hd).trans (exec_ldVxK_of_none s x (s.firstKeyDown_eq_none_iff.2 hup)),
    stepReport_of_wait hrun hd hup, ⟨s.tick_err.trans hrun, s.tick_fetchWord ▸ hd,
      fun k => (State.keyDown_congr s.tick_key k).trans (hup k)⟩, fun keys j hkeys => ?_⟩
  have hdown : ∀ k, (s.setKeys keys).keyDown k = decide (k = j) := hkeys
  have hfirst : (s.setKeys keys).firstKeyDown = some j :=
    State.firstKeyDown_of_least (by simp [hdown]) fun k hk => by simp [hdown, ne_of_lt hk]
  refine ⟨_, (stepEvent_of_legal (s := s.setKeys keys) hrun hd).trans (exec_ldVxK_of_some _ x hfirst), ?_,
    State.toNat_advance_pc _⟩
  rw [State.getV_advance_setV_same, toNat_ofNat_key]

/-- Settles O35: the call pushes `next`, the return at its target pops it, and `SP` is as it was. -/
theorem callThenReturnComesBack : Obligations.CallThenReturnComesBack := by
  intro s nnn hrun hsp hlen hcall hret
  have hroom : s.sp < s.stk.length := hlen ▸ hsp
  have htop : (s.push s.nextPc).stkAt s.sp = s.nextPc := by rw [State.stkAt_push s _ _ hroom, if_pos rfl]
  have hexec := exec_call_of_room s nnn (Nat.ne_of_lt hsp)
  have hexec' := exec_ret_of_nonempty ((s.push s.nextPc).setPc nnn) (Nat.succ_ne_zero s.sp)
  refine ⟨_, _, (stepEvent_of_legal hrun hcall).trans hexec, rfl, rfl,
    (stepEvent_of_legal (s := (s.push s.nextPc).setPc nnn) hrun hret).trans hexec', ?_, rfl, ?_, ?_⟩
  · exact (congrArg BitVec.toNat htop).trans s.toNat_nextPc
  · exact (congrArg BitVec.toNat htop).trans s.toNat_nextPc
  · refine ((exec_changesOnly hexec).trans (exec_changesOnly hexec')).drop .sp rfl ?_
    simp only [writes, State.setPc_sp, State.push_sp, Nat.succ_ne_zero, Nat.ne_of_lt hsp, if_false, among, List.mem_cons,
      List.not_mem_nil]
    tauto

/-- Settles O30: by the length of the program; one that fits is stored byte by byte without a wrap. -/
theorem loadCopiesTheProgramOrNothing : Obligations.LoadCopiesTheProgramOrNothing := by
  intro s bytes
  constructor
  · intro hfit
    have hload : s.load bytes = s.storeBytes 0x200 bytes := if_neg (Nat.not_lt.2 hfit)
    refine ⟨if_neg (Nat.not_lt.2 hfit), _, rfl, fun k hk => ?_, ?_⟩
    · rw [hload, State.memRead_storeBytes s 0x200 bytes (by omega) k hk]
    · rw [hload]
      refine (s.storeBytes_changesOnly 0x200 bytes).mono ?_
      rintro it ⟨k, a, hk, rfl, ha⟩
      exact ⟨k, a, hk, rfl, ha.trans (Nat.mod_eq_of_lt (by omega))⟩
  · intro hlong
    exact ⟨if_pos hlong, congrArg Host.Outcome.next (if_pos hlong)⟩

/-- Settles O23: the values by computation; what changes `DT` by the frame of the instructions and what the other events keep. -/
theorem delayTimerIsChangedOnlyByItsInstructionTickAndReset :
    Obligations.DelayTimerIsChangedOnlyByItsInstructionTickAndReset := by
  refine ⟨fun s x => ⟨_, rfl, rfl⟩, fun s x => ⟨_, rfl, s.getV_advance_setV_same x _⟩, fun s hrun => ⟨_, rfl, ?_⟩,
    fun s => ⟨_, rfl, rfl⟩, fun e s t h hne => ?_⟩
  · rw [State.tick_of_running hrun, toNat_decremented]
  cases e with
  | reset => exact .inr (.inr rfl)
  | setKeys k => exact absurd (Host.Outcome.next.inj h ▸ rfl) hne
  | load bytes => exact absurd (Host.Outcome.next.inj h ▸ s.load_keeps State.dt (fun _ _ _ => rfl) bytes) hne
  | tick =>
    by_cases hrun : s.err = none
    · exact .inr (.inl ⟨rfl, hrun⟩)
    · exact absurd (Host.Outcome.next.inj h ▸ congrArg State.dt (State.tick_of_halted hrun)) hne
  | step =>
    by_cases hrun : s.err = none
    · obtain ⟨_, -, rfl⟩ | ⟨i, hd, hexec⟩ := stepEvent_cases hrun h
      · exact absurd rfl hne
      · have hwrites : writes i s .dt := by
          by_contra hno
          exact hne (exec_changesOnly hexec .dt hno).symm
        obtain ⟨x, rfl⟩ := eq_ldDTVx_of_writes_dt hwrites
        exact .inl ⟨rfl, hrun, x, hd⟩
    · exact absurd (Host.Outcome.next.inj (h.symm.trans (stepEvent_of_halted hrun)) ▸ rfl) hne

end

section
/-! PROOF. The items are all there is to a state: canonical memories that read the same are the same list, and so are the other
fields (R10, log entry 4). -/

namespace Sys2Proof.Machine

variable {c : Config} {m m' : List Host.Cell}

/-- A canonical memory differs at its first address from every memory that begins above it: there its byte is no reset
contents. -/
theorem Memory.read_ne_of_lt {a : Nat} {x : Byte} (h : Memory.wf c ((a, x) :: m) = true) (hlt : ∀ e ∈ m', a < e.1) :
    Memory.read c ((a, x) :: m) a ≠ Memory.read c m' a := by
  obtain ⟨-, hx, -, -⟩ := Memory.wf_cons.1 h
  rw [Memory.read_of_lt hlt, Memory.read, if_pos rfl]
  exact hx

theorem Memory.lt_of_lt_head {a a' : Nat} {x' : Byte} (h : Memory.wf c ((a', x') :: m') = true) (hlt : a < a') :
    ∀ e ∈ (a', x') :: m', a < e.1 := by
  obtain ⟨-, -, hm', -⟩ := Memory.wf_cons.1 h
  exact List.forall_mem_cons.2 ⟨hlt, fun e he => hlt.trans (hm' e he)⟩

/-- Canonical memories that read the same are the same list (log entry 4): they begin at the same address with the same byte,
and what is left reads the same. -/
theorem Memory.ext_of_wf : ∀ {m m' : List Host.Cell}, Memory.wf c m = true → Memory.wf c m' = true →
    (∀ a < 4096, Memory.read c m a = Memory.read c m' a) → m = m'
  | [], [], _, _, _ => rfl
  | [], (a, x) :: m', _, h', hread =>
    absurd (hread a (Memory.wf_cons.1 h').1).symm (Memory.read_ne_of_lt h' nofun)
  | (a, x) :: m, [], h, _, hread => absurd (hread a (Memory.wf_cons.1 h).1) (Memory.read_ne_of_lt h nofun)
  | (a, x) :: m, (a', x') :: m', h, h', hread => by
    obtain ⟨ha, -, hm, hwf⟩ := Memory.wf_cons.1 h
    obtain ⟨ha', -, hm', hwf'⟩ := Memory.wf_cons.1 h'
    obtain hlt | rfl | hlt := Nat.lt_trichotomy a a'
    · exact absurd (hread a ha) (Memory.read_ne_of_lt h (Memory.lt_of_lt_head h' hlt))
    · have hx : x = x' := by simpa only [Memory.read, if_true] using hread a ha
      have htail : m = m' := Memory.ext_of_wf hwf hwf' fun b hb => by
        by_cases hba : a = b
        · rw [← hba, Memory.read_of_lt hm, Memory.read_of_lt hm']
        · simpa only [Memory.read, if_neg hba] using hread b hb
      rw [hx, htail]
    · exact absurd (hread a' ha').symm (Memory.read_ne_of_lt h' (Memory.lt_of_lt_head h hlt))

end Sys2Proof.Machine

open Sys2Proof.Machine

/-- Settles O21: field by field, the stack by its common length and memory by its canonical form. -/
theorem statesThatAgreeOnEveryItemAreEqual : Obligations.StatesThatAgreeOnEveryItemAreEqual := by
  intro s t ⟨_, _, hlen, hwf⟩ ⟨_, _, hlen', hwf'⟩ hsame
  have hcfg : s.cfg = t.cfg := hsame .cfg
  have hv : s.v = t.v := Vector.ext fun k hk => hsame (.v ⟨k, hk⟩)
  have hkey : s.key = t.key := Vector.ext fun k hk => hsame (.key ⟨k, hk⟩)
  have hdisp : s.disp = t.disp := Display.ext_pixel fun px py => hsame (.disp px py)
  have hstk : s.stk = t.stk := by
    refine List.ext_getElem (by rw [hlen, hlen', hcfg]) fun k hk hk' => ?_
    have hk_same : s.stk.getD k 0 = t.stk.getD k 0 := hsame (.stk k)
    rwa [List.getD_eq_getElem _ _ hk, List.getD_eq_getElem _ _ hk'] at hk_same
  have hmem : s.mem = t.mem := by
    refine Memory.ext_of_wf (c := t.cfg) (hcfg ▸ hwf) hwf' fun a ha => ?_
    have hbyte : s.memRead a = t.memRead a := hsame (.mem (BitVec.ofNatLT a ha))
    rwa [State.memRead, State.memRead, hcfg, Nat.mod_eq_of_lt ha] at hbyte
  cases s
  cases t
  rw [State.mk.injEq]
  exact ⟨hv, hsame .i, hsame .pc, hsame .sp, hstk, hsame .dt, hsame .st, hsame .err, hmem, hdisp, hkey, hcfg, hsame .draws,
    hsame .schedule⟩

end

section
/-! PROOF. One instruction at a time: control transfer, logic, shifts and random (R71 to R73, R85 to R93). -/

namespace Sys2Proof

/-- `5XYn` is an instruction for `n = 0` alone (R52). -/
theorem decode_wordR_major5 (x y : Reg) (n : Nibble) :
    decode (wordR 0x5 x y n) = if n = 0 then .ok (.seReg x y) else .error .major5 := by
  simp [decode]

/-- `9XYn` is an instruction for `n = 0` alone (R52). -/
theorem decode_wordR_major9 (x y : Reg) (n : Nibble) :
    decode (wordR 0x9 x y n) = if n = 0 then .ok (.sneReg x y) else .error .major9 := by
  simp [decode]

theorem ofNat_nibble_eq_zero_iff {n : Nat} (hn : n < 16) : BitVec.ofNat 4 n = 0 ↔ n = 0 := by
  rw [← BitVec.toNat_inj, BitVec.toNat_ofNat, Nat.mod_eq_of_lt hn]
  rfl

/-- A number with a nibble, two registers and a minor opcode in their places (R47). -/
theorem ofNat_eq_wordR_minor (m : Nibble) (x y : Reg) {n : Nat} (hn : n < 16) :
    BitVec.ofNat 16 (m.toNat * 4096 + 256 * x.val + 16 * y.val + n) = wordR m x y (BitVec.ofNat 4 n) :=
  ofNat_eq_wordR m x y _ _ (by rw [BitVec.toNat_ofNat, Nat.mod_eq_of_lt hn]; omega)

end Sys2Proof

namespace Sys2Proof.Machine

/-! ### Shifts and their flags as numbers -/

theorem toNat_flagByte (b : Bool) : (flagByte b).toNat = b.toNat := by
  cases b <;> rfl

theorem toNat_flagByte_lowBit (b : Byte) : (flagByte (lowBit b)).toNat = b.toNat % 2 := by
  rw [toNat_flagByte, lowBit, BitVec.getLsbD, Nat.toNat_testBit, pow_zero, Nat.div_one]

theorem toNat_flagByte_highBit (b : Byte) : (flagByte (highBit b)).toNat = b.toNat / 128 := by
  have := b.isLt
  rw [toNat_flagByte, highBit, BitVec.getLsbD, Nat.toNat_testBit]
  omega

theorem toNat_shiftRight_one (b : Byte) : (b >>> 1).toNat = b.toNat / 2 := by
  rw [BitVec.toNat_ushiftRight, Nat.shiftRight_eq_div_pow, pow_one]

theorem toNat_shiftLeft_one (b : Byte) : (b <<< 1).toNat = b.toNat * 2 % 256 := by
  rw [BitVec.toNat_shiftLeft, Nat.shiftLeft_eq, pow_one]

end Sys2Proof.Machine

open Sys2Proof Sys2Proof.Machine

/-- Settles O37: the low nibble decides the word, and each skip compares the registers as numbers. -/
theorem skipsOnRegistersCompareAllEightBits : Obligations.SkipsOnRegistersCompareAllEightBits := by
  intro s x y
  refine ⟨fun n hn => ?_, fun n hn => ?_, ⟨_, rfl, s.toNat_skipIf_beq_pc _ _, s.skipIf_changesOnly _⟩,
    ⟨_, rfl, s.toNat_skipIf_bne_pc _ _, s.skipIf_changesOnly _⟩⟩
  · refine (congrArg decode (ofNat_eq_wordR_minor 0x5 x y hn)).trans ?_
    simp only [decode_wordR_major5, ofNat_nibble_eq_zero_iff hn]
  · refine (congrArg decode (ofNat_eq_wordR_minor 0x9 x y hn)).trans ?_
    simp only [decode_wordR_major9, ofNat_nibble_eq_zero_iff hn]

/-- Settles O38: the word is `BNNN`'s, and the jump sets `PC` alone, to a sum mod 4096. -/
theorem jumpWithOffsetAddsV0 : Obligations.JumpWithOffsetAddsV0 := fun s nnn =>
  ⟨(congrArg decode (ofNat_eq_wordA 0xB nnn _ rfl)).trans (decode_encode (i := .jpV0 nnn) rfl), _, rfl,
    toNat_add_setWidth nnn _, s.setPc_changesOnly _⟩

/-- Settles O40: the words are row 8's, and each operation works bit by bit on one destination. -/
theorem logicOperationsAreBitwiseAndLeaveTheFlag : Obligations.LogicOperationsAreBitwiseAndLeaveTheFlag := by
  intro s x y
  refine ⟨decode_major8 (i := .orReg x y) 0x1 rfl rfl,
    decode_major8 (i := .andReg x y) 0x2 rfl rfl,
    decode_major8 (i := .xorReg x y) 0x3 rfl rfl,
    ⟨_, rfl, fun k _ => ?_, State.toNat_advance_pc _, s.advance_setV_changesRegs x _⟩,
    ⟨_, rfl, fun k _ => ?_, State.toNat_advance_pc _, s.advance_setV_changesRegs x _⟩,
    ⟨_, rfl, fun k _ => ?_, State.toNat_advance_pc _, s.advance_setV_changesRegs x _⟩⟩
  · rw [State.getV_advance_setV_same, BitVec.getLsbD_or]
  · rw [State.getV_advance_setV_same, BitVec.getLsbD_and]
  · rw [State.getV_advance_setV_same, BitVec.getLsbD_xor]

/-- Settles O43: the word is `8XY7`'s, and the end of a flag-writing instruction with the reverse difference and its
not-borrow. -/
theorem subnWritesReverseDifferenceThenNotBorrow : Obligations.SubnWritesReverseDifferenceThenNotBorrow := by
  intro s x y
  refine ⟨decode_major8 (i := .subnReg x y) 0x7 rfl rfl, _, rfl,
    fun hx => ?_, ?_, s.toNat_finishFlagged_pc x _ _, s.finishFlagged_changesRegs x _ _⟩
  · rw [s.getV_finishFlagged_dest _ _ hx, toNat_sub_byte]
  · rw [State.getV_finishFlagged_flag, toNat_flagByte_notBorrow]

/-- Settles O44: the words are row 8's, and the end of a flag-writing instruction with the shifted source and the bit shifted
out, at either setting of the source. -/
theorem shiftsWriteResultThenTheBitShiftedOut : Obligations.ShiftsWriteResultThenTheBitShiftedOut := by
  intro s x y src hsrc
  obtain rfl : src = (s.shiftSource x y).toNat := hsrc
  refine ⟨decode_major8 (i := .shrReg x y) 0x6 rfl rfl,
    decode_major8 (i := .shlReg x y) 0xE rfl rfl,
    ⟨_, rfl, fun hx => ?_, ?_, s.toNat_finishFlagged_pc x _ _, s.finishFlagged_changesRegs x _ _⟩,
    ⟨_, rfl, fun hx => ?_, ?_, s.toNat_finishFlagged_pc x _ _, s.finishFlagged_changesRegs x _ _⟩⟩
  · rw [s.getV_finishFlagged_dest _ _ hx, toNat_shiftRight_one]
  · rw [State.getV_finishFlagged_flag, toNat_flagByte_lowBit]
  · rw [s.getV_finishFlagged_dest _ _ hx, toNat_shiftLeft_one]
  · rw [State.getV_finishFlagged_flag, toNat_flagByte_highBit]

/-- Settles O45: the word is `CXNN`'s, and the free byte of this draw is masked bit by bit. -/
theorem randomIsMaskedByTheImmediate : Obligations.RandomIsMaskedByTheImmediate := by
  intro s x nn
  refine ⟨?_, _, rfl, fun k _ => ?_, rfl, State.toNat_advance_pc _,
    (exec_changesOnly (i := .rnd x nn) rfl).mono (by simp [writes, among])⟩
  · rw [ofNat_eq_wordI 0xC x nn _ (by rw [Nat.mul_comm]; rfl)]
    exact decode_encode (i := .rnd x nn) rfl
  · rw [State.countDraw_getV, State.loadRandom, State.getV_advance_setV_same, BitVec.getLsbD_and]

end

section
/-! PROOF. One instruction at a time: the index register, stores and loads, the key skips and the timers (R102 to R106, R121 to
R125). -/

namespace Sys2Proof.Machine

variable (s : State)

theorem State.toNat_indexed_i (x : Reg) : (s.indexed x).i.toNat = (s.i.toNat + (s.getV x).toNat) % 4096 :=
  BitVec.toNat_ofNat (s.i.toNat + (s.getV x).toNat) 12

theorem toNat_flagByte_indexOverflow (i : Addr) (p : Byte) :
    (flagByte (indexOverflow i p)).toNat = if 0xFFF < i.toNat + p.toNat then 1 else 0 :=
  toNat_flagByte_decide (0xFFF < i.toNat + p.toNat)

/-- With legal parameters no glyph address wraps (R5, R103). -/
theorem toNat_glyphAddr {c : Config} (hc : c.wf) (d : Fin 16) : (glyphAddr c d).toNat = c.fontBase.toNat + 5 * d.val := by
  obtain ⟨-, -, hbase⟩ := hc
  have := d.isLt
  rw [glyphAddr, BitVec.toNat_add, BitVec.toNat_ofNat]
  omega

/-- The digit stored at `EA(k)`, as a number (R104). -/
theorem State.toNat_memRead_bcd {b : Byte} {k digit : Nat}
    (hdigit : [b.toNat / 100, b.toNat / 10 % 10, b.toNat % 10][k]? = some digit) :
    ((s.storeBytes s.i.toNat (bcdDigits b)).memRead (s.ea k)).toNat = digit := by
  rw [← map_toNat_bcdDigits, List.getElem?_map] at hdigit
  obtain ⟨byte, hbyte, rfl⟩ := Option.map_eq_some_iff.1 hdigit
  rw [s.memRead_ea_storeBytes (by simp) hbyte]

end Sys2Proof.Machine

open Sys2Proof Sys2Proof.Machine

/-- Settles O47: the word is `FX1E`'s, and the two settings of the parameter. -/
theorem addIndexWrapsAndFlagsOnlyByParameter : Obligations.AddIndexWrapsAndFlagsOnlyByParameter := by
  intro s x
  refine ⟨decode_majorF (i := .addI x) 0x1E rfl rfl, ?_⟩
  cases hflag : s.cfg.fx1eSetsVF with
  | true =>
    have hexec := exec_addI_of_flag s x hflag
    refine ⟨_, hexec, s.toNat_indexed_i x, fun _ => ⟨?_, ?_⟩, nofun, State.toNat_advance_pc _⟩
    · rw [State.getV_advance_setV_same, toNat_flagByte_indexOverflow]
    · exact (exec_changesOnly hexec).mono (by simp [writes, among])
  | false =>
    have hexec := exec_addI_of_no_flag s x hflag
    exact ⟨_, hexec, s.toNat_indexed_i x, nofun,
      fun _ => (exec_changesOnly hexec).mono (by simp [writes, among, hflag]), State.toNat_advance_pc _⟩

/-- Settles O48: the word is `FX29`'s, and with legal parameters the glyph's address does not wrap. -/
theorem loadFontPointsAtTheGlyph : Obligations.LoadFontPointsAtTheGlyph := by
  intro s x hc
  have hglyph := toNat_glyphAddr hc (s.lowNibble x)
  refine ⟨decode_majorF (i := .ldF x) 0x29 rfl rfl, _, rfl, hglyph, ?_, State.toNat_advance_pc _,
    (s.setI_changesOnly _).append (State.advance_changesOnly _)⟩
  obtain ⟨-, -, hbase⟩ := hc
  have := (s.lowNibble x).isLt
  rw [State.advance_i, State.setI_i, hglyph]
  omega

/-- Settles O49: the word is `FX33`'s, and the three digits are where the store put them. -/
theorem bcdStoresThreeDigits : Obligations.BcdStoresThreeDigits := by
  intro s x
  refine ⟨decode_majorF (i := .ldB x) 0x33 rfl rfl, _, rfl, s.toNat_memRead_bcd (k := 0) rfl, s.toNat_memRead_bcd (k := 1) rfl,
    s.toNat_memRead_bcd (k := 2) rfl, ?_, exec_changesOnly (i := .ldB x) rfl⟩
  rw [State.toNat_advance_pc, State.storeBytes_pc]

/-- Settles O50: the word is `FX55`'s, and each register is where the store put it. -/
theorem registerDumpStoresEachRegister : Obligations.RegisterDumpStoresEachRegister := by
  intro s x
  have hlen : (s.regsUpTo x).length ≤ 4096 := by
    rw [State.length_regsUpTo]
    omega
  refine ⟨decode_majorF (i := .storeRegs x) 0x55 rfl rfl, _, rfl,
    fun r hr => s.memRead_ea_storeBytes hlen (s.getElem?_regsUpTo hr), ?_, exec_changesOnly (i := .storeRegs x) rfl⟩
  rw [State.toNat_advance_pc, State.storeBytes_pc]

/-- Settles O51: the word is `FX65`'s, and what the load loop gives each register. -/
theorem registerLoadReadsEachRegister : Obligations.RegisterLoadReadsEachRegister := by
  intro s x
  refine ⟨decode_majorF (i := .loadRegs x) 0x65 rfl rfl, _, rfl, fun r hr => ?_, ?_, exec_changesOnly (i := .loadRegs x) rfl⟩
  · exact (s.getV_loadFirst _ r).trans (if_pos (Nat.lt_succ_of_le hr))
  · rw [State.toNat_advance_pc, State.loadFirst_pc]

/-- Settles O55: the words are row E's, and each skip tests the latch numbered by the low nibble. -/
theorem keySkipsTestOneLatch : Obligations.KeySkipsTestOneLatch := by
  intro s x k hk
  obtain rfl : k = s.lowNibble x := Fin.ext hk
  exact ⟨decode_majorE (i := .skp x) 0x9E rfl rfl,
    decode_majorE (i := .sknp x) 0xA1 rfl rfl,
    ⟨_, rfl, s.toNat_skipIf_pc _, s.skipIf_changesOnly _⟩, ⟨_, rfl, s.toNat_skipIf_not_pc _, s.skipIf_changesOnly _⟩⟩

/-- Settles O57: the words are row F's, and each copies one value. -/
theorem readDelayTimerAndSetSoundTimer : Obligations.ReadDelayTimerAndSetSoundTimer := fun s x =>
  ⟨decode_majorF (i := .ldVxDT x) 0x07 rfl rfl, decode_majorF (i := .ldSTVx x) 0x18 rfl rfl,
    ⟨_, rfl, s.getV_advance_setV_same x _, State.toNat_advance_pc _, s.advance_setV_changesRegs x _⟩,
    ⟨_, rfl, rfl, State.toNat_advance_pc _, (s.setST_changesOnly _).append (State.advance_changesOnly _)⟩⟩

end

section
/-! PROOF. Drawing: the cells a `DXYN` inverts and its collision, and the complete list of what reaches `V[0xF]` (R12, R112,
R113). -/

namespace Sys2Proof.Machine

variable (s : State)

/-- The rows of the bytes read at `I` cover what the sprite at `I` covers (R112). -/
theorem rowsCover_readBytes_iff (x0 y0 n : Nat) (px : Fin 64) (py : Fin 32) :
    Display.rowsCover x0 y0 0 (s.readBytes s.i.toNat n) px py ↔ spriteCovers s x0 y0 n px py := by
  constructor
  · rintro ⟨r, hr, hpy, c, hc, hpx, hbit⟩
    rw [State.getElem_readBytes, ← State.memRead_ea] at hbit
    exact ⟨r, c, by simpa using hr, hc, congrArg Fin.val hpx, by simpa using congrArg Fin.val hpy, hbit⟩
  · rintro ⟨r, c, hr, hc, hpx, hpy, hbit⟩
    rw [State.memRead_ea, ← State.getElem_readBytes s _ n r (by simpa using hr)] at hbit
    exact ⟨r, _, Fin.ext (by simpa using hpy), c, hc, Fin.ext hpx, hbit⟩

/-- The sprite that a `DXYN` draws, placed by its registers, has a 1 bit over the cell (R112). -/
def State.drawCovers (s : State) (x y : Reg) (n : Nat) (px : Fin 64) (py : Fin 32) : Prop :=
  spriteCovers s ((s.getV x).toNat % 64) ((s.getV y).toNat % 32) n px py

variable {n : Nat} (hn : n ≤ 15)
include hn

/-- A draw leaves exactly the cells that its sprite does not cover (R112). -/
theorem State.pixel_drawn_iff (x y : Reg) (px : Fin 64) (py : Fin 32) :
    (s.drawn x y n).1.pixel px py = s.disp.pixel px py ↔ ¬ s.drawCovers x y n px py := by
  rw [State.drawCovers, ← rowsCover_readBytes_iff]
  exact (Display.drawRows_spec _ _ 0 (s.readBytes s.i.toNat n) (s.disp, false) (by simp; omega)).1 px py

/-- A draw collides exactly when a covered cell was lit (R112). -/
theorem State.collision_drawn_iff (x y : Reg) :
    (s.drawn x y n).2 = true ↔ ∃ px py, s.disp.pixel px py = true ∧ s.drawCovers x y n px py := by
  simp only [State.drawCovers, ← rowsCover_readBytes_iff]
  refine ((Display.drawRows_spec _ _ 0 (s.readBytes s.i.toNat n) (s.disp, false) (by simp; omega)).2).trans ?_
  simp [and_comm]

/-- A covered cell is inverted (R112). -/
theorem State.pixel_drawn_of_covers {x y : Reg} {px : Fin 64} {py : Fin 32} (h : s.drawCovers x y n px py) :
    (s.drawn x y n).1.pixel px py = !s.disp.pixel px py :=
  Bool.eq_not_of_ne fun hsame => (s.pixel_drawn_iff hn x y px py).1 hsame h

/-- The cells that a draw turns off are the lit ones it covers (R112). -/
theorem State.turned_off_iff (x y : Reg) (px : Fin 64) (py : Fin 32) :
    s.disp.pixel px py = true ∧ (s.drawn x y n).1.pixel px py = false ↔
      s.disp.pixel px py = true ∧ s.drawCovers x y n px py := by
  refine and_congr_right fun hlit => ⟨fun hoff => ?_, fun hcov => ?_⟩
  · by_contra hno
    cases hoff.symm.trans (((s.pixel_drawn_iff hn x y px py).2 hno).trans hlit)
  · rw [s.pixel_drawn_of_covers hn hcov, hlit]
    rfl

omit hn

/-- A flag byte is 1 or 0 as what it reports holds or not (R12). -/
theorem flagByte_cases {b : Bool} {p : Prop} (h : b = true ↔ p) : (flagByte b = 1 ∧ p) ∨ (flagByte b = 0 ∧ ¬ p) := by
  cases b with
  | true => exact .inl ⟨rfl, h.1 rfl⟩
  | false => exact .inr ⟨rfl, fun hp => Bool.false_ne_true (h.2 hp)⟩

theorem flagByte_eq_one_iff (b : Bool) : flagByte b = 1 ↔ b = true := by
  cases b <;> decide

theorem flagByte_decide (p : Prop) [Decidable p] : flagByte (decide p) = if p then 1 else 0 := by
  by_cases hp : p <;> simp [flagByte, hp]

end Sys2Proof.Machine

open Sys2Proof Sys2Proof.Machine

/-- Settles O53: the word is `DXYN`'s, and the cells and the collision of its draw. -/
theorem drawInvertsExactlyTheCoveredCells : Obligations.DrawInvertsExactlyTheCoveredCells := by
  intro s x y n hn
  refine ⟨?_, _, rfl, fun px py => s.pixel_drawn_iff hn x y px py, ?_, State.toNat_advance_pc _,
    exec_changesOnly (i := .drw x y n) rfl⟩
  · refine (congrArg decode (ofNat_eq_wordR_minor 0xD x y (Nat.lt_succ_of_le hn))).trans ?_
    exact decode_encode (i := .drw x y n) (decide_eq_true hn)
  · rw [State.getV_advance_setV_same]
    exact flagByte_cases (s.collision_drawn_iff hn x y)

/-- Settles O54: the second draw covers the same cells, so that each of them is inverted twice, and it was dark before the first
draw exactly if it is lit before the second. -/
theorem drawingTwiceRestoresTheDisplay : Obligations.DrawingTwiceRestoresTheDisplay := by
  intro s t u x y n hn h h' hx hy
  have hcovers : ∀ px py, t.drawCovers x y n px py ↔ s.drawCovers x y n px py := by
    intro px py
    rw [State.drawCovers, State.drawCovers, hx, hy]
    obtain rfl := Host.Outcome.next.inj h
    rfl
  have ht : t.disp = (s.drawn x y n).1 := Host.Outcome.next.inj h ▸ rfl
  obtain rfl := Host.Outcome.next.inj h'
  constructor
  · refine Display.ext_pixel fun px py => ?_
    show (t.drawn x y n).1.pixel px py = s.disp.pixel px py
    by_cases hcov : s.drawCovers x y n px py
    · rw [t.pixel_drawn_of_covers hn ((hcovers px py).2 hcov), ht, s.pixel_drawn_of_covers hn hcov, Bool.not_not]
    · rw [(t.pixel_drawn_iff hn x y px py).2 (mt (hcovers px py).1 hcov), ht, (s.pixel_drawn_iff hn x y px py).2 hcov]
  · rw [State.getV_advance_setV_same, flagByte_eq_one_iff, t.collision_drawn_iff hn]
    refine exists₂_congr fun px py => ?_
    rw [hcovers]
    refine and_congr_left fun hcov => ?_
    rw [ht, s.pixel_drawn_of_covers hn hcov, Bool.not_eq_true']

/-- Settles O22: the flag of each flag-writing instruction, and the frame of every other. -/
theorem flagRegisterIsWrittenOnlyAsListed : Obligations.FlagRegisterIsWrittenOnlyAsListed := by
  refine ⟨rfl, fun i s t hwf h => ?_⟩
  have hkeep : ¬ writes i s (.v flagReg) → t.getV flagReg = s.getV flagReg := fun hno =>
    (exec_changesOnly h (.v flagReg) hno).symm
  cases i with
  | addReg x y | subReg x y | subnReg x y =>
    obtain rfl := Host.Outcome.next.inj h
    exact (s.getV_finishFlagged_flag x _ _).trans (flagByte_decide _)
  | shrReg x y =>
    obtain rfl := Host.Outcome.next.inj h
    exact (congrArg BitVec.toNat (s.getV_finishFlagged_flag x _ _)).trans (toNat_flagByte_lowBit _)
  | shlReg x y =>
    obtain rfl := Host.Outcome.next.inj h
    exact (congrArg BitVec.toNat (s.getV_finishFlagged_flag x _ _)).trans (toNat_flagByte_highBit _)
  | drw x y n =>
    have hn : n ≤ 15 := of_decide_eq_true hwf
    obtain rfl := Host.Outcome.next.inj h
    show (State.getV (State.advance _) flagReg = 1 ∧ _) ∨ (State.getV (State.advance _) flagReg = 0 ∧ _)
    rw [State.getV_advance_setV_same]
    refine flagByte_cases ((s.collision_drawn_iff hn x y).trans (exists₂_congr fun px py => ?_))
    exact (s.turned_off_iff hn x y px py).symm
  | addI x =>
    obtain ⟨hflag, rfl⟩ | ⟨hflag, -⟩ := exec_addI_cases h
    · simp only [hflag, if_true]
      exact ((s.indexed x).getV_advance_setV_same flagReg _).trans (flagByte_decide _)
    · simp only [hflag, Bool.false_eq_true, if_false]
      exact hkeep (by simp [writes, hflag])
  | ldImm x | addImm x | ldReg x | orReg x | andReg x | xorReg x | rnd x | ldVxDT x | ldVxK x =>
    intro hx
    exact hkeep (by simp [writes, hx.symm])
  | loadRegs x =>
    intro hx
    refine hkeep ?_
    rintro (hpc | ⟨r, hr, hv⟩)
    · cases hpc
    · obtain rfl := Item.v.inj hv
      exact hx (le_antisymm (Fin.le_last x) hr)
  | ret | call =>
    refine hkeep ?_
    rw [writes]
    split <;> simp
  | _ => exact hkeep (by simp [writes, wholeDisplay, bytesAtIndex])

end
